-- ==== Sys2Proof/Word.lean ====
section
/-!
DEFINITION. The word types of the machine (spec/00_scope.md R7, R9): every value is an unsigned bit field.
-/

namespace Sys2Proof

/-- One byte: a general register, a memory cell, a timer, an 8-bit immediate. -/
abbrev Byte := BitVec 8

/-- One 16-bit word: an instruction, `pc`, `I`, a return address. -/
abbrev Word := BitVec 16

/-- One nibble: a register selector, a sprite height, a key. -/
abbrev Nibble := BitVec 4

/-- A 12-bit address immediate. -/
abbrev Addr12 := BitVec 12

end Sys2Proof
end

