-- ==== Sys2Proof/Syntax.lean ====
section
/-!
DEFINITION. The abstract syntax: one constructor per row of spec/opcode_table.json (spec/30_encoding.md R75),
in the table's order. The operands are the fields the row names (R71, R72), each at its own width, so every
value of an operand is a legal one (R73).
-/

namespace Sys2Proof

/-- The 34 instructions of the opcode map (R75, R76). -/
inductive Instr where
  /-- 00E0, R151: clear the display. -/
  | cls
  /-- 00EE, R102: return from subroutine. -/
  | ret
  /-- 1nnn, R103: jump. -/
  | jp (nnn : Addr12)
  /-- 2nnn, R104: call subroutine. -/
  | call (nnn : Addr12)
  /-- 3xnn, R105: skip if equal to immediate. -/
  | seImm (x : Nibble) (nn : Byte)
  /-- 4xnn, R106: skip if not equal to immediate. -/
  | sneImm (x : Nibble) (nn : Byte)
  /-- 5xy0, R107: skip if registers are equal. -/
  | seReg (x y : Nibble)
  /-- 9xy0, R108: skip if registers differ. -/
  | sneReg (x y : Nibble)
  /-- 6xnn, R121: load immediate. -/
  | ldImm (x : Nibble) (nn : Byte)
  /-- 7xnn, R122: add immediate, no flag. -/
  | addImm (x : Nibble) (nn : Byte)
  /-- 8xy0, R123: copy register. -/
  | ldReg (x y : Nibble)
  /-- 8xy1, R124: bitwise or. -/
  | orReg (x y : Nibble)
  /-- 8xy2, R125: bitwise and. -/
  | andReg (x y : Nibble)
  /-- 8xy3, R126: bitwise exclusive or. -/
  | xorReg (x y : Nibble)
  /-- 8xy4, R127: add with carry out. -/
  | addReg (x y : Nibble)
  /-- 8xy5, R128: subtract with not-borrow out. -/
  | subReg (x y : Nibble)
  /-- 8xy7, R130: reverse subtract, this hardware's own form. -/
  | subnReg (x y : Nibble)
  /-- 8xy6, R129: shift right by one. -/
  | shr (x y : Nibble)
  /-- 8xyE, R131: shift left by one. -/
  | shl (x y : Nibble)
  /-- Annn, R140: load index register. -/
  | ldI (nnn : Addr12)
  /-- Bnnn, R109: jump with offset. The row names two overlapping fields, `nnn` and `x` = w[11:8];
  that they agree is what `Instr.wellFormed` checks. -/
  | jpV0 (nnn : Addr12) (x : Nibble)
  /-- Cxnn, R160: masked random byte. -/
  | rnd (x : Nibble) (nn : Byte)
  /-- Dxyn, R152: draw a sprite. -/
  | drw (x y n : Nibble)
  /-- Ex9E, R161: skip if the key in Vx is pressed. -/
  | skp (x : Nibble)
  /-- ExA1, R162: skip if the key in Vx is not pressed. -/
  | sknp (x : Nibble)
  /-- Fx07, R163: read the delay timer. -/
  | ldVxDt (x : Nibble)
  /-- Fx15, R165: set the delay timer. -/
  | ldDtVx (x : Nibble)
  /-- Fx18, R166: set the sound timer. -/
  | ldStVx (x : Nibble)
  /-- Fx1E, R141: add register to index register. -/
  | addI (x : Nibble)
  /-- Fx0A, R164: wait for a key, by polling. -/
  | ldVxK (x : Nibble)
  /-- Fx29, R142: point `I` at a glyph. -/
  | ldF (x : Nibble)
  /-- Fx33, R143: store decimal digits. -/
  | ldB (x : Nibble)
  /-- Fx55, R144: store registers V0..Vx. -/
  | stRegs (x : Nibble)
  /-- Fx65, R145: load registers V0..Vx. -/
  | ldRegs (x : Nibble)
deriving DecidableEq, Repr

end Sys2Proof
end

