-- ==== Sys2Proof/WellFormed.lean ====
section
/-!
DEFINITION. Which instruction terms stand for a word. Operands have their exact widths, and every value of a
field is legal (spec/30_encoding.md R73), so the one check is that the two overlapping fields of Bnnn agree (R72).
-/

namespace Sys2Proof

/-- The term is the reading of some word: for Bnnn the selector `x` is the top nibble of its own `nnn`
(R72, R109); every other row's fields are disjoint and unrestricted (R73). -/
def Instr.wellFormed (i : Instr) : Bool :=
  match i with
  | .jpV0 nnn x => x == nnn.extractLsb' 8 4
  | .cls | .ret | .jp _ | .call _ | .seImm _ _ | .sneImm _ _ | .seReg _ _ | .sneReg _ _ => true
  | .ldImm _ _ | .addImm _ _ | .ldReg _ _ | .orReg _ _ | .andReg _ _ | .xorReg _ _ => true
  | .addReg _ _ | .subReg _ _ | .subnReg _ _ | .shr _ _ | .shl _ _ | .ldI _ | .rnd _ _ => true
  | .drw _ _ _ | .skp _ | .sknp _ | .ldVxDt _ | .ldDtVx _ | .ldStVx _ | .addI _ | .ldVxK _ => true
  | .ldF _ | .ldB _ | .stRegs _ | .ldRegs _ => true

end Sys2Proof
end

