-- ==== Sys2Proof/Decode.lean ====
section
/-!
DEFINITION. The decoder, the encoder and the opcode map as data (spec/30_encoding.md). Decoding depends on the
word alone (R79, R93); a word that matches no row is rejected by name as unimplemented (R77).
-/

namespace Sys2Proof

/-- Why bytes are no instruction. -/
inductive Rejection where
  /-- The word matches no row of the opcode map (R77). The cycle reports it and goes on (R95). -/
  | unimplemented (w : Word)
  /-- Fewer than two bytes: not a word at all (R70). A fetch always brings two. -/
  | truncated
deriving DecidableEq, Repr

/-- `op` = w[15:12] (R71). -/
def fieldOp (w : Word) : Nibble := w.extractLsb' 12 4

/-- `x` = w[11:8] (R71). -/
def fieldX (w : Word) : Nibble := w.extractLsb' 8 4

/-- `y` = w[7:4] (R71). -/
def fieldY (w : Word) : Nibble := w.extractLsb' 4 4

/-- `n` = w[3:0] (R71). -/
def fieldN (w : Word) : Nibble := w.extractLsb' 0 4

/-- `nn` = w[7:0] (R71). -/
def fieldNN (w : Word) : Byte := w.extractLsb' 0 8

/-- `nnn` = w[11:0] (R71). -/
def fieldNNN (w : Word) : Addr12 := w.extractLsb' 0 12

/-- The second level of family 0x8, on `n` (R74, R75 rows 11 to 19). -/
def decodeAlu (w : Word) : Except Rejection Instr :=
  match fieldN w with
  | 0x0#4 => .ok (.ldReg (fieldX w) (fieldY w))
  | 0x1#4 => .ok (.orReg (fieldX w) (fieldY w))
  | 0x2#4 => .ok (.andReg (fieldX w) (fieldY w))
  | 0x3#4 => .ok (.xorReg (fieldX w) (fieldY w))
  | 0x4#4 => .ok (.addReg (fieldX w) (fieldY w))
  | 0x5#4 => .ok (.subReg (fieldX w) (fieldY w))
  | 0x6#4 => .ok (.shr (fieldX w) (fieldY w))
  | 0x7#4 => .ok (.subnReg (fieldX w) (fieldY w))
  | 0xE#4 => .ok (.shl (fieldX w) (fieldY w))
  | _ => .error (.unimplemented w)

/-- The second level of family 0xE, on `nn` (R74, R75 rows 24 and 25). -/
def decodeKey (w : Word) : Except Rejection Instr :=
  match fieldNN w with
  | 0x9E#8 => .ok (.skp (fieldX w))
  | 0xA1#8 => .ok (.sknp (fieldX w))
  | _ => .error (.unimplemented w)

/-- The second level of family 0xF, on `nn` (R74, R75 rows 26 to 34). -/
def decodeMisc (w : Word) : Except Rejection Instr :=
  match fieldNN w with
  | 0x07#8 => .ok (.ldVxDt (fieldX w))
  | 0x0A#8 => .ok (.ldVxK (fieldX w))
  | 0x15#8 => .ok (.ldDtVx (fieldX w))
  | 0x18#8 => .ok (.ldStVx (fieldX w))
  | 0x1E#8 => .ok (.addI (fieldX w))
  | 0x29#8 => .ok (.ldF (fieldX w))
  | 0x33#8 => .ok (.ldB (fieldX w))
  | 0x55#8 => .ok (.stRegs (fieldX w))
  | 0x65#8 => .ok (.ldRegs (fieldX w))
  | _ => .error (.unimplemented w)

/-- The decoder: the two-level lookup of R74, with family 0x0 matched on the whole word and families 0x5
and 0x9 only with `n` = 0 (decision D10, spec/90_conflicts.md C5). Total (R79). -/
def decode (w : Word) : Except Rejection Instr :=
  match fieldOp w with
  | 0x0#4 =>
    if w = 0x00E0#16 then .ok .cls else if w = 0x00EE#16 then .ok .ret else .error (.unimplemented w)
  | 0x1#4 => .ok (.jp (fieldNNN w))
  | 0x2#4 => .ok (.call (fieldNNN w))
  | 0x3#4 => .ok (.seImm (fieldX w) (fieldNN w))
  | 0x4#4 => .ok (.sneImm (fieldX w) (fieldNN w))
  | 0x5#4 => if fieldN w = 0 then .ok (.seReg (fieldX w) (fieldY w)) else .error (.unimplemented w)
  | 0x6#4 => .ok (.ldImm (fieldX w) (fieldNN w))
  | 0x7#4 => .ok (.addImm (fieldX w) (fieldNN w))
  | 0x8#4 => decodeAlu w
  | 0x9#4 => if fieldN w = 0 then .ok (.sneReg (fieldX w) (fieldY w)) else .error (.unimplemented w)
  | 0xA#4 => .ok (.ldI (fieldNNN w))
  | 0xB#4 => .ok (.jpV0 (fieldNNN w) (fieldX w))
  | 0xC#4 => .ok (.rnd (fieldX w) (fieldNN w))
  | 0xD#4 => .ok (.drw (fieldX w) (fieldY w) (fieldN w))
  | 0xE#4 => decodeKey w
  | _ => decodeMisc w

/-- Two bytes as an instruction word, the byte at the lower address first and high (R54). -/
def bigEndian (hi lo : Byte) : Word := hi ++ lo

/-- The word of a fetched pair of bytes (R54); missing bytes count as zero. -/
def wordOfBytes (bytes : List Byte) : Word := bigEndian (bytes.getD 0 0) (bytes.getD 1 0)

/-- The decoder on bytes: the instruction of the first word and the bytes after it. -/
def decodeBytes (bytes : List Byte) : Except Rejection (Instr × List Byte) :=
  match bytes with
  | hi :: lo :: rest =>
    match decode (bigEndian hi lo) with
    | .ok i => .ok (i, rest)
    | .error r => .error r
  | _ => .error .truncated

/-- Format XI: `op`, `x`, `nn` (R72). -/
def packXI (op x : Nibble) (nn : Byte) : Word := op ++ x ++ nn

/-- Format A: `op`, `nnn` (R72). -/
def packA (op : Nibble) (nnn : Addr12) : Word := op ++ nnn

/-- Formats XY and XYN: `op`, `x`, `y`, `n` (R72). -/
def packXYN (op x y n : Nibble) : Word := op ++ x ++ y ++ n

/-- The word of an instruction, from the patterns of R75. For Bnnn the selector is part of `nnn`. -/
def encode (i : Instr) : Word :=
  match i with
  | .cls => 0x00E0#16
  | .ret => 0x00EE#16
  | .jp nnn => packA 0x1 nnn
  | .call nnn => packA 0x2 nnn
  | .seImm x nn => packXI 0x3 x nn
  | .sneImm x nn => packXI 0x4 x nn
  | .seReg x y => packXYN 0x5 x y 0x0
  | .sneReg x y => packXYN 0x9 x y 0x0
  | .ldImm x nn => packXI 0x6 x nn
  | .addImm x nn => packXI 0x7 x nn
  | .ldReg x y => packXYN 0x8 x y 0x0
  | .orReg x y => packXYN 0x8 x y 0x1
  | .andReg x y => packXYN 0x8 x y 0x2
  | .xorReg x y => packXYN 0x8 x y 0x3
  | .addReg x y => packXYN 0x8 x y 0x4
  | .subReg x y => packXYN 0x8 x y 0x5
  | .subnReg x y => packXYN 0x8 x y 0x7
  | .shr x y => packXYN 0x8 x y 0x6
  | .shl x y => packXYN 0x8 x y 0xE
  | .ldI nnn => packA 0xA nnn
  | .jpV0 nnn _ => packA 0xB nnn
  | .rnd x nn => packXI 0xC x nn
  | .drw x y n => packXYN 0xD x y n
  | .skp x => packXI 0xE x 0x9E
  | .sknp x => packXI 0xE x 0xA1
  | .ldVxDt x => packXI 0xF x 0x07
  | .ldDtVx x => packXI 0xF x 0x15
  | .ldStVx x => packXI 0xF x 0x18
  | .addI x => packXI 0xF x 0x1E
  | .ldVxK x => packXI 0xF x 0x0A
  | .ldF x => packXI 0xF x 0x29
  | .ldB x => packXI 0xF x 0x33
  | .stRegs x => packXI 0xF x 0x55
  | .ldRegs x => packXI 0xF x 0x65

/-- The `mask` and `match` of an instruction's row of the opcode map (R75). -/
def opcodeRow (i : Instr) : Word × Word :=
  match i with
  | .cls => (0xFFFF, 0x00E0)
  | .ret => (0xFFFF, 0x00EE)
  | .jp _ => (0xF000, 0x1000)
  | .call _ => (0xF000, 0x2000)
  | .seImm _ _ => (0xF000, 0x3000)
  | .sneImm _ _ => (0xF000, 0x4000)
  | .seReg _ _ => (0xF00F, 0x5000)
  | .sneReg _ _ => (0xF00F, 0x9000)
  | .ldImm _ _ => (0xF000, 0x6000)
  | .addImm _ _ => (0xF000, 0x7000)
  | .ldReg _ _ => (0xF00F, 0x8000)
  | .orReg _ _ => (0xF00F, 0x8001)
  | .andReg _ _ => (0xF00F, 0x8002)
  | .xorReg _ _ => (0xF00F, 0x8003)
  | .addReg _ _ => (0xF00F, 0x8004)
  | .subReg _ _ => (0xF00F, 0x8005)
  | .subnReg _ _ => (0xF00F, 0x8007)
  | .shr _ _ => (0xF00F, 0x8006)
  | .shl _ _ => (0xF00F, 0x800E)
  | .ldI _ => (0xF000, 0xA000)
  | .jpV0 _ _ => (0xF000, 0xB000)
  | .rnd _ _ => (0xF000, 0xC000)
  | .drw _ _ _ => (0xF000, 0xD000)
  | .skp _ => (0xF0FF, 0xE09E)
  | .sknp _ => (0xF0FF, 0xE0A1)
  | .ldVxDt _ => (0xF0FF, 0xF007)
  | .ldDtVx _ => (0xF0FF, 0xF015)
  | .ldStVx _ => (0xF0FF, 0xF018)
  | .addI _ => (0xF0FF, 0xF01E)
  | .ldVxK _ => (0xF0FF, 0xF00A)
  | .ldF _ => (0xF0FF, 0xF029)
  | .ldB _ => (0xF0FF, 0xF033)
  | .stRegs _ => (0xF0FF, 0xF055)
  | .ldRegs _ => (0xF0FF, 0xF065)

/-- The opcode map as a list of (`mask`, `match`), its 34 rows in the table's order (R75). -/
def opcodeRows : List (Word × Word) :=
  [(0xFFFF, 0x00E0), (0xFFFF, 0x00EE), (0xF000, 0x1000), (0xF000, 0x2000), (0xF000, 0x3000), (0xF000, 0x4000),
   (0xF00F, 0x5000), (0xF00F, 0x9000), (0xF000, 0x6000), (0xF000, 0x7000)] ++
  [(0xF00F, 0x8000), (0xF00F, 0x8001), (0xF00F, 0x8002), (0xF00F, 0x8003), (0xF00F, 0x8004), (0xF00F, 0x8005),
   (0xF00F, 0x8007), (0xF00F, 0x8006), (0xF00F, 0x800E)] ++
  [(0xF000, 0xA000), (0xF000, 0xB000), (0xF000, 0xC000), (0xF000, 0xD000), (0xF0FF, 0xE09E), (0xF0FF, 0xE0A1)] ++
  [(0xF0FF, 0xF007), (0xF0FF, 0xF015), (0xF0FF, 0xF018), (0xF0FF, 0xF01E), (0xF0FF, 0xF00A), (0xF0FF, 0xF029),
   (0xF0FF, 0xF033), (0xF0FF, 0xF055), (0xF0FF, 0xF065)]

/-- The word `w` is an instance of a row (R74: `w & mask = match`). -/
def rowMatches (row : Word × Word) (w : Word) : Bool := w &&& row.1 == row.2

/-- The bytes, in memory order, of the instruction whose bits are `w` as spec/opcode_table.json numbers them:
one word, bit 0 its least significant, stored high byte first (R54, R70); bits above `nbits` are 0. -/
def tableBytes (nbits w : Nat) : List Byte :=
  [BitVec.ofNat 8 (w % 2 ^ nbits / 256), BitVec.ofNat 8 (w % 2 ^ nbits)]

/-- The instruction the decoder reads from the table's numbering of a word. -/
def decodeTableWord (nbits w : Nat) : Option Instr :=
  match decodeBytes (tableBytes nbits w) with
  | .ok (i, _) => some i
  | .error _ => none

end Sys2Proof
end

