-- ==== Sys2Proof/Config.lean ====
section
/-!
DEFINITION. What is fixed for the machine and does not change as it runs: the constants of spec/00_scope.md R7,
the parameters of R8 and the one free value (spec/45_timers_keys_random.md R160). A parameter the spec calls OPEN
is an opaque constant, so no proof can see its value (log entries 3, 4 and 5).
-/

namespace Sys2Proof

/-- A natural number ≥ 1: the type of cycles-per-frame (R38, decision D20). -/
abbrev PosNat := { n : Nat // 1 ≤ n }

/-- Bytes of memory (R7, R21). -/
abbrev Config.memSize : Nat := 4096

/-- Call-stack capacity `STACK_DEPTH`, 16 for this hardware (R8, decision D2; log entry 6). -/
abbrev Config.stackDepth : Nat := 16

/-- Where a program is loaded and where `pc` starts (R7, R25, R51). -/
abbrev Config.programBase : Nat := 0x200

/-- Program capacity, 4096 − 512 bytes (R7, R172). -/
abbrev Config.programCapacity : Nat := 3584

/-- Base of the glyph table (R7, R51). -/
abbrev Config.glyphBase : Nat := 0x050

/-- `CPF0` less one: the OPEN power-on value of cycles-per-frame is at least 1 (R8, R38; log entry 4). -/
opaque Config.cpf0Pred : Nat

/-- `CPF0` ≥ 1 (R8, R38, R221). DESIGN CHOICE (log entry 4): an opaque constant. Safe. -/
def Config.cpf0 : PosNat := ⟨Config.cpf0Pred + 1, Nat.le_add_left 1 _⟩

/-- `SHIFT_SWAP0` (R8, R39). DESIGN CHOICE (log entry 4): an opaque constant. Safe. -/
opaque Config.shiftSwap0 : Bool

/-- `COMPLEX_JUMP0` (R8, R40). DESIGN CHOICE (log entry 4): an opaque constant. Safe. -/
opaque Config.complexJump0 : Bool

/-- `GLYPH`, 80 bytes (R8, R173, decision D16). DESIGN CHOICE (log entry 5): an opaque constant. Safe. -/
opaque Config.glyph : Vector Byte 80

/-- The free value of Cxnn: the byte `rnd` of the k-th draw, any byte (R160, decision D14).
DESIGN CHOICE (log entry 3): an uninterpreted function of the draw's number. Safe. -/
opaque Config.rnd : Nat → Byte

end Sys2Proof
end

