-- ==== Sys2Proof/Machine/State.lean ====
section
/-!
DEFINITION. The state of the core: exactly the list of spec/10_state.md R20, and three fields of the model's own
(`cyclesLeft`, `reports`, `draws`; log entries 1, 2 and 3). The outcome types of a step. The state after reset (R41, R221).
-/

namespace Sys2Proof.Machine

/-- Memory as the bytes that differ from `Memory.unlisted`: addresses strictly rising (`Memory.wf`). -/
abbrev Memory := List Host.Cell

/-- What an address that is not listed reads as: the reset contents of all of memory (R21, R41; log entry 18). -/
def Memory.unlisted : Byte := 0x00

/-- The addresses rise strictly. -/
def Memory.rising : Memory → Bool
  | [] => true
  | [_] => true
  | c :: d :: m => decide (c.1 < d.1) && Memory.rising (d :: m)

/-- The canonical form: addresses rise strictly, each is one of the 4096 that exist (R21), and no entry
equals what an unlisted address reads as. -/
def Memory.wf (m : Memory) : Bool :=
  Memory.rising m && m.all fun c => decide (c.1 < Config.memSize) && decide (c.2 ≠ Memory.unlisted)

/-- The 32 × 64 grid of one-bit pixels, row 0 on top (R29, R150). -/
abbrev Framebuffer := Vector (Vector Bool 64) 32

/-- Every pixel off (R29, R151). -/
def Framebuffer.blank : Framebuffer := Vector.replicate 32 (Vector.replicate 64 false)

/-- The run state (R31). -/
inductive RunState where
  /-- No program was loaded yet; the initial state. -/
  | noRom
  | running
  /-- Paused by the host, or halted by a fault (R181). -/
  | paused
deriving DecidableEq, Repr

/-- The three fault causes (R191, decision D4). -/
inductive Cause where
  /-- Code 1: 00EE with an empty call stack. -/
  | stackUnderflow
  /-- Code 2: 2nnn with a full call stack. -/
  | stackOverflow
  /-- Code 3: a fetch or a data access outside [0, 4096). -/
  | addressOutOfRange
deriving DecidableEq, Repr

/-- What a `raise` carries: the cause and the recorded `addr` (R10, R191). -/
structure Raise where
  cause : Cause
  addr : BitVec 17
deriving DecidableEq, Repr

/-- The record of the fault latch (R32): cause, address of the faulting instruction, lowest address of the
access outside [0, 4096) (0 for the stack faults). -/
structure FaultRecord where
  cause : Cause
  ia : Word
  addr : BitVec 17
deriving DecidableEq, Repr

/-- One unimplemented-instruction report: `Unimplemented(ia, w)` (R192, R96). -/
structure Report where
  ia : Word
  w : Word
deriving DecidableEq, Repr

/-- The whole state (R20) and the model's own three fields. -/
structure State where
  /-- R21: 4096 bytes. -/
  mem : Memory
  /-- R22: the general registers; `V[15]` is the flag register VF (R23). -/
  V : Vector Byte 16
  /-- R24: the index register, all 16 bits held. -/
  I : Word
  /-- R25: the program counter, never masked (R34). -/
  pc : Word
  /-- R26: the call stack's storage. -/
  stack : Vector Word Config.stackDepth
  /-- R26: the depth counter, the number of valid entries. -/
  sp : Fin (Config.stackDepth + 1)
  /-- R27: the delay timer. -/
  dt : Byte
  /-- R28: the sound timer. -/
  st : Byte
  /-- R29: the framebuffer. -/
  fb : Framebuffer
  /-- R30: the single-slot key latch. -/
  key : Option Nibble
  /-- R31: the run state. -/
  run : RunState
  /-- R32: the sticky fault latch. -/
  fault : Option FaultRecord
  /-- R38: cycles-per-frame. -/
  cpf : PosNat
  /-- R39: the shift-swap option. -/
  shiftSwap : Bool
  /-- R40: the complex-jump option. -/
  complexJump : Bool
  /-- MODEL'S OWN (log entry 1): cycles of the `step_frame` in progress still to run (R171's loop); 0 between frames. -/
  cyclesLeft : Nat
  /-- MODEL'S OWN (log entry 2): the report list of the `step_frame` in progress or last completed (R171). -/
  reports : List Report
  /-- MODEL'S OWN (log entry 3): how many random bytes have been drawn (R160). -/
  draws : Nat
deriving DecidableEq, Repr

/-- Faults of a step: NONE exists, so this type has no constructor. Every error condition of the spec (R190) is
a report, a host result or a fault whose entry the spec describes (R196), and all of these are next states.
Safe: nothing stops where the hardware goes on (log entry 12). -/
inductive Fault
deriving DecidableEq, Repr

/-- Refusals of a step or a host operation. -/
inductive Refusal where
  /-- Raised only by an arm of `exec` whose instruction has no meaning yet; no arm is such. Safe. -/
  | notModelled (mnemonic : String)
  /-- Raised by `hostOp` and `readPort` alone: an operation or a port read issued while a `step_frame` is in progress,
  which R170 and R180 assume never to happen and to which the core gives no meaning. Safe (log entry 9). -/
  | operationInProgress
deriving DecidableEq, Repr

/-- What an instruction or a step answers. -/
abbrev Result := Host.Outcome State Fault Refusal

/-- The power-on state: the state after `reset()` with the configuration registers at their power-on
parameters (R41, R220, R221). -/
def State.reset : State where
  mem := []
  V := Vector.replicate 16 0x00
  I := 0x0000
  pc := 0x0200
  stack := Vector.replicate Config.stackDepth 0x0000
  sp := 0
  dt := 0x00
  st := 0x00
  fb := Framebuffer.blank
  key := none
  run := .noRom
  fault := none
  cpf := Config.cpf0
  shiftSwap := Config.shiftSwap0
  complexJump := Config.complexJump0
  cyclesLeft := 0
  reports := []
  draws := 0

end Sys2Proof.Machine
end

