-- ==== Sys2Proof/Machine/Ops.lean ====
section
/-!
DEFINITION. The named operations over memory, registers, stack, framebuffer and `pc`, and fault entry as ONE
shared operation (spec/60_exceptions.md R196). There is no return from a fault (R200): only the host's `reset` clears one.
-/

namespace Sys2Proof.Machine

/-! ## Memory (R21, R52, R53) -/

/-- One byte of memory. -/
def Memory.read (m : Memory) (a : Nat) : Byte :=
  match m with
  | [] => Memory.unlisted
  | c :: m' => if c.1 = a then c.2 else Memory.read m' a

/-- The memory with no entry at `a`. -/
def Memory.erase (m : Memory) (a : Nat) : Memory := m.filter fun c => decide (c.1 ≠ a)

/-- An entry put in its place in the rising order. -/
def Memory.insert (m : Memory) (a : Nat) (b : Byte) : Memory :=
  match m with
  | [] => [(a, b)]
  | c :: m' => if a < c.1 then (a, b) :: c :: m' else c :: Memory.insert m' a b

/-- Writes one byte and keeps the canonical form: a byte equal to `Memory.unlisted` is not listed. -/
def Memory.write (m : Memory) (a : Nat) (b : Byte) : Memory :=
  if b = Memory.unlisted then m.erase a else (m.erase a).insert a b

/-- Writes bytes at ascending addresses from `a` (R53). -/
def Memory.writeBytes (m : Memory) (a : Nat) (bytes : List Byte) : Memory :=
  match bytes with
  | [] => m
  | b :: bs => Memory.writeBytes (m.write a b) (a + 1) bs

/-- The bytes at `a`, `a + 1`, …, `a + n - 1`. -/
def Memory.readBytes (m : Memory) (a n : Nat) : List Byte := (List.range n).map fun k => m.read (a + k)

/-- The access of `n` bytes at `addr` leaves [0, 4096): addresses are natural numbers and never wrap (R52, R53). -/
def outOfRange (addr n : Nat) : Bool := decide (addr + n - 1 > 4095)

/-- `AddressOutOfRange(max(addr, 4096))`: the lowest address of the access outside memory (R52). -/
def Raise.outOfRange (addr : Nat) : Raise := ⟨.addressOutOfRange, BitVec.ofNat 17 (max addr 4096)⟩

/-- `MemRead(addr, n)` (R52): all of the access is checked before any byte is read. -/
def memRead (m : Memory) (addr n : Nat) : Except Raise (List Byte) :=
  if outOfRange addr n then .error (Raise.outOfRange addr) else .ok (m.readBytes addr n)

/-- `MemWrite(addr, n, v)` with n the length of `v` (R53): out of range, nothing at all is written. -/
def memWrite (m : Memory) (addr : Nat) (v : List Byte) : Except Raise Memory :=
  if outOfRange addr v.length then .error (Raise.outOfRange addr) else .ok (m.writeBytes addr v)

/-! ## General registers (R22) -/

/-- `V[x]` read. -/
def State.readV (s : State) (x : Nibble) : Byte := s.V[x.toNat]'x.isLt

/-- `V[x] <- b`; any of the 16, VF included (R22, R23). -/
def State.writeV (s : State) (x : Nibble) (b : Byte) : State := { s with V := s.V.set x.toNat b x.isLt }

/-- `V[i] <- b[0]`, `V[i+1] <- b[1]`, … in that order (R145). -/
def State.writeVs (s : State) (i : Nat) (bytes : List Byte) : State :=
  match bytes with
  | [] => s
  | b :: bs => State.writeVs (s.writeV (BitVec.ofNat 4 i) b) (i + 1) bs

/-- The values of `V[0]`, …, `V[x]` (R144). -/
def State.readVs (s : State) (x : Nibble) : List Byte :=
  (List.range (x.toNat + 1)).map fun i => s.readV (BitVec.ofNat 4 i)

/-! ## Program counter (R25, R100) -/

/-- `pc <- pc + 2` after a fetch (R92). -/
def State.advance (s : State) : State := { s with pc := s.pc + 2 }

/-- A skip adds 2 to the already advanced `pc` when its condition holds (R100). -/
def State.skipIf (s : State) (c : Bool) : State := { s with pc := if c then s.pc + 2 else s.pc }

/-- The address of the instruction being executed: a meaning runs with `pc` = ia + 2 (R92, R13; log entry 8). -/
def State.ia (s : State) : Word := s.pc - 2

/-! ## Call stack (R26, R101) -/

/-- `Push(v)` (R101): StackOverflow(0) when full, before any write. -/
def State.push (s : State) (v : Word) : Except Raise State :=
  if h : s.sp.val < Config.stackDepth then
    .ok { s with stack := s.stack.set s.sp.val v h, sp := ⟨s.sp.val + 1, Nat.succ_lt_succ h⟩ }
  else .error ⟨.stackOverflow, 0⟩

/-- `Pop()` (R101): StackUnderflow(0) when empty, before any write. The popped entry keeps its stale
contents, which nothing can observe (R26; log entry 10). -/
def State.pop (s : State) : Except Raise (Word × State) :=
  if h : s.sp.val = 0 then .error ⟨.stackUnderflow, 0⟩
  else
    .ok (s.stack[s.sp.val - 1]'(by have := s.sp.isLt; omega),
      { s with sp := ⟨s.sp.val - 1, by have := s.sp.isLt; omega⟩ })

/-! ## Framebuffer (R29) -/

/-- `fb[r][c]`; off outside the grid. -/
def Framebuffer.pixel (fb : Framebuffer) (r c : Nat) : Bool :=
  if h : r < 32 ∧ c < 64 then (fb[r]'h.1)[c]'h.2 else false

/-- `fb[r][c] <- fb[r][c] ^ 1`; nothing outside the grid. -/
def Framebuffer.flip (fb : Framebuffer) (r c : Nat) : Framebuffer :=
  if h : r < 32 ∧ c < 64 then fb.set r ((fb[r]'h.1).set c (!(fb[r]'h.1)[c]'h.2) h.2) h.1 else fb

/-- One sprite bit at pixel (r, c): a set bit XORs the pixel, and a pixel that was on is a collision (R152). -/
def drawBit (bit : Bool) (r c : Nat) (acc : Framebuffer × Bool) : Framebuffer × Bool :=
  if bit then (acc.1.flip r c, acc.2 || acc.1.pixel r c) else acc

/-- One sprite byte at row `r`, most significant bit first from column `x0`, clipped at column 64 (R152). -/
def drawByte (b : Byte) (r x0 : Nat) (acc : Framebuffer × Bool) : Framebuffer × Bool :=
  (List.range 8).foldl
    (fun acc c => if x0 + c ≥ 64 then acc else drawBit (b.getLsbD (7 - c)) r (x0 + c) acc) acc

/-- The sprite's bytes on consecutive rows from `r` (R152); the flag collects the collisions. -/
def drawBytes (bytes : List Byte) (r x0 : Nat) (acc : Framebuffer × Bool) : Framebuffer × Bool :=
  match bytes with
  | [] => acc
  | b :: bs => drawBytes bs (r + 1) x0 (drawByte b r x0 acc)

/-! ## Timers (R27, R28, R171) -/

/-- One frame's decrement of a timer, floored at 0. -/
def tick (t : Byte) : Byte := if t = 0 then 0 else t - 1

/-! ## Fault entry (R196) -/

/-- Fault entry for the instruction at `ia`: the latch and `run` are written, nothing else (R196, R197). -/
def State.enterFault (s : State) (ia : Word) (r : Raise) : State :=
  { s with fault := some ⟨r.cause, ia, r.addr⟩, run := .paused }

/-- An access that may raise, then the rest of the instruction: on a raise the instruction's only effects are
the advance of `pc` (already made) and fault entry (R197). -/
def orRaise {α : Type} (r : Except Raise α) (s : State) (k : α → State) : Result :=
  match r with
  | .error e => .next (s.enterFault s.ia e)
  | .ok a => .next (k a)

end Sys2Proof.Machine
end

