-- ==== Sys2Proof/Machine/Flags.lean ====
section
/-!
DEFINITION. Every flag computation of the spec (spec/10_state.md R36). The flag is the whole register VF and
is written 0x00 or 0x01 (R23).
-/

namespace Sys2Proof.Machine

/-- The byte a flag is written as (R23). -/
def flagByte (f : Bool) : Byte := if f then 0x01 else 0x00

/-- `VF <- f`, always an instruction's last write (R11). -/
def State.setFlag (s : State) (f : Bool) : State := s.writeV 0xF (flagByte f)

/-- 8xy4: the sum needs a ninth bit (R127). -/
def carryOut (a b : Byte) : Bool := decide (a.toNat + b.toNat ≥ 256)

/-- 8xy5: the subtraction did not underflow (R128, "note inverted polarity vs. add"). -/
def noBorrow (a b : Byte) : Bool := !decide (a.toNat < b.toNat)

/-- 8xy7: the reverse subtraction would underflow (R130, the opposite polarity of 8xy5). -/
def wouldUnderflow (a b : Byte) : Bool := decide (a.toNat > b.toNat)

/-- 8xy6: the bit shifted out on the right, of the pre-shift operand (R129). -/
def lowBit (t : Byte) : Bool := t.getLsbD 0

/-- 8xyE: the bit shifted out on the left, of the pre-shift operand (R131). -/
def highBit (t : Byte) : Bool := t.getLsbD 7

/-- Fx1E: the new index value exceeds 0x1000, strictly (R141, spec/90_conflicts.md C6). -/
def indexExceeds (i : Word) : Bool := decide (i.toNat > 0x1000)

end Sys2Proof.Machine
end

