-- ==== Sys2Proof/Machine/Operands.lean ====
section
/-!
DEFINITION. Every operand form of the spec: how an instruction's fields and the state give the values it works
on (spec/30_encoding.md R73, spec/43_index_memory.md R146).
-/

namespace Sys2Proof.Machine

/-- The operand of a shift: `V[y]` when `shift_swap` is true, else `V[x]` (R39, R129, R131). -/
def State.shiftOperand (s : State) (x y : Nibble) : Byte := if s.shiftSwap then s.readV y else s.readV x

/-- The offset of Bnnn: `V[x]` when `complex_jump` is true, else `V[0]` (R40, R109). -/
def State.jumpOffset (s : State) (x : Nibble) : Byte := if s.complexJump then s.readV x else s.readV 0x0

/-- A key is latched and its zero-extended value is the whole byte `a` (R161, decision D19). -/
def State.keyIs (s : State) (a : Byte) : Bool :=
  match s.key with
  | none => false
  | some k => decide (k.setWidth 8 = a)

/-- The address of the glyph of the low nibble of `a` (R142). -/
def glyphAddress (a : Byte) : Word := 0x0050 + 5 * (a &&& 0x0F).setWidth 16

/-- The hundreds, tens and ones digits of `a` (R143). -/
def decimalDigits (a : Byte) : List Byte := [a / 100, (a / 10) % 10, a % 10]

/-- The base address of every data access: `I` as a natural number, never masked or wrapped (R24, R146). -/
def State.index (s : State) : Nat := s.I.toNat

/-- The start column of a sprite: the position wraps (R152). -/
def spriteColumn (a : Byte) : Nat := a.toNat % 64

/-- The start row of a sprite: the position wraps (R152). -/
def spriteRow (a : Byte) : Nat := a.toNat % 32

/-- The rows of an n-row sprite actually processed: the body clips at row 32 (R152). -/
def spriteRows (n : Nibble) (y0 : Nat) : Nat := min n.toNat (32 - y0)

/-- The sprite bytes of the processed rows; with no row nothing is read (R152). -/
def State.spriteBytes (s : State) (rows : Nat) : Except Raise (List Byte) :=
  if rows = 0 then .ok [] else memRead s.mem s.index rows

end Sys2Proof.Machine
end

