-- ==== Sys2Proof/Machine/Alu.lean ====
section
/-!
DEFINITION. Register loads and the ALU (spec/42_alu.md): 6xnn, 7xnn, 8xy0 to 8xy7, 8xyE. Operands are read
first, the result is written next and the flag last (R11, R132). None of these can fault.
-/

namespace Sys2Proof.Machine

/-- 6xnn (R121). -/
def execLdImm (x : Nibble) (nn : Byte) (s : State) : Result := .next (s.writeV x nn)

/-- 7xnn (R122): wraps, no flag. -/
def execAddImm (x : Nibble) (nn : Byte) (s : State) : Result := .next (s.writeV x (s.readV x + nn))

/-- 8xy0 (R123). -/
def execLdReg (x y : Nibble) (s : State) : Result := .next (s.writeV x (s.readV y))

/-- 8xy1 (R124): VF is not written. -/
def execOrReg (x y : Nibble) (s : State) : Result := .next (s.writeV x (s.readV x ||| s.readV y))

/-- 8xy2 (R125): VF is not written. -/
def execAndReg (x y : Nibble) (s : State) : Result := .next (s.writeV x (s.readV x &&& s.readV y))

/-- 8xy3 (R126): VF is not written. -/
def execXorReg (x y : Nibble) (s : State) : Result := .next (s.writeV x (s.readV x ^^^ s.readV y))

/-- 8xy4 (R127). -/
def execAddReg (x y : Nibble) (s : State) : Result :=
  let a := s.readV x
  let b := s.readV y
  .next ((s.writeV x (a + b)).setFlag (carryOut a b))

/-- 8xy5 (R128). -/
def execSubReg (x y : Nibble) (s : State) : Result :=
  let a := s.readV x
  let b := s.readV y
  .next ((s.writeV x (a - b)).setFlag (noBorrow a b))

/-- 8xy7 (R130): on underflow `V[x]` is not written and VF is 1; otherwise the difference and VF 0. -/
def execSubnReg (x y : Nibble) (s : State) : Result :=
  let a := s.readV x
  let b := s.readV y
  .next (if wouldUnderflow a b then s.setFlag true else (s.writeV x (b - a)).setFlag false)

/-- 8xy6 (R129): logical shift by one. -/
def execShr (x y : Nibble) (s : State) : Result :=
  let t := s.shiftOperand x y
  .next ((s.writeV x (t >>> 1)).setFlag (lowBit t))

/-- 8xyE (R131). -/
def execShl (x y : Nibble) (s : State) : Result :=
  let t := s.shiftOperand x y
  .next ((s.writeV x (t <<< 1)).setFlag (highBit t))

end Sys2Proof.Machine
end

