-- ==== Sys2Proof/Machine/ControlFlow.lean ====
section
/-!
DEFINITION. Control transfer (spec/41_control_flow.md): 00EE, 1nnn, 2nnn, 3xnn, 4xnn, 5xy0, 9xy0, Bnnn. Every
meaning runs with `pc` already equal to ia + 2 (R92).
-/

namespace Sys2Proof.Machine

/-- 00EE (R102). -/
def execRet (s : State) : Result := orRaise s.pop s fun p => { p.2 with pc := p.1 }

/-- 1nnn (R103). -/
def execJp (nnn : Addr12) (s : State) : Result := .next { s with pc := nnn.setWidth 16 }

/-- 2nnn (R104): the pushed `pc` is the advanced one. -/
def execCall (nnn : Addr12) (s : State) : Result :=
  orRaise (s.push s.pc) s fun t => { t with pc := nnn.setWidth 16 }

/-- 3xnn (R105). -/
def execSeImm (x : Nibble) (nn : Byte) (s : State) : Result := .next (s.skipIf (decide (s.readV x = nn)))

/-- 4xnn (R106). -/
def execSneImm (x : Nibble) (nn : Byte) (s : State) : Result := .next (s.skipIf (decide (s.readV x ≠ nn)))

/-- 5xy0 (R107). -/
def execSeReg (x y : Nibble) (s : State) : Result := .next (s.skipIf (decide (s.readV x = s.readV y)))

/-- 9xy0 (R108). -/
def execSneReg (x y : Nibble) (s : State) : Result := .next (s.skipIf (decide (s.readV x ≠ s.readV y)))

/-- Bnnn (R109): not masked, not range-checked here. -/
def execJpV0 (nnn : Addr12) (x : Nibble) (s : State) : Result :=
  .next { s with pc := nnn.setWidth 16 + (s.jumpOffset x).setWidth 16 }

end Sys2Proof.Machine
end

