-- ==== Sys2Proof/Machine/Display.lean ====
section
/-!
DEFINITION. Display (spec/44_display.md): 00E0, Dxyn. The framebuffer is written by these two and by the
host's `reset` alone (R29, spec/90_conflicts.md C9).
-/

namespace Sys2Proof.Machine

/-- 00E0 (R151): VF is not written. -/
def execCls (s : State) : Result := .next { s with fb := Framebuffer.blank }

/-- Dxyn (R152): the start position wraps, the body clips; the rows actually processed are range-checked as a
whole before any pixel or VF changes; VF is always written, last. -/
def execDrw (x y n : Nibble) (s : State) : Result :=
  let x0 := spriteColumn (s.readV x)
  let y0 := spriteRow (s.readV y)
  orRaise (s.spriteBytes (spriteRows n y0)) s fun bytes =>
    let drawn := drawBytes bytes y0 x0 (s.fb, false)
    { s with fb := drawn.1 }.setFlag drawn.2

end Sys2Proof.Machine
end

