-- ==== Sys2Proof/Machine/IndexMemory.lean ====
section
/-!
DEFINITION. Index register, loads and stores (spec/43_index_memory.md): Annn, Fx1E, Fx29, Fx33, Fx55, Fx65.
Only Annn, Fx1E and Fx29 change `I` (R146).
-/

namespace Sys2Proof.Machine

/-- Annn (R140). -/
def execLdI (nnn : Addr12) (s : State) : Result := .next { s with I := nnn.setWidth 16 }

/-- Fx1E (R141): the 16-bit sum is stored unmasked; VF is set when it exceeds 0x1000 and otherwise not written. -/
def execAddI (x : Nibble) (s : State) : Result :=
  let i := s.I + (s.readV x).setWidth 16
  let t := { s with I := i }
  .next (if indexExceeds i then t.setFlag true else t)

/-- Fx29 (R142): computes an address only. -/
def execLdF (x : Nibble) (s : State) : Result := .next { s with I := glyphAddress (s.readV x) }

/-- Fx33 (R143). -/
def execLdB (x : Nibble) (s : State) : Result :=
  orRaise (memWrite s.mem s.index (decimalDigits (s.readV x))) s fun m => { s with mem := m }

/-- Fx55 (R144): `I` is not changed. -/
def execStRegs (x : Nibble) (s : State) : Result :=
  orRaise (memWrite s.mem s.index (s.readVs x)) s fun m => { s with mem := m }

/-- Fx65 (R145): `I` is not changed; all bytes are read before any register is written. -/
def execLdRegs (x : Nibble) (s : State) : Result :=
  orRaise (memRead s.mem s.index (x.toNat + 1)) s fun bytes => s.writeVs 0 bytes

end Sys2Proof.Machine
end

