-- ==== Sys2Proof/Machine/TimersKeysRandom.lean ====
section
/-!
DEFINITION. Timers, keys and random numbers (spec/45_timers_keys_random.md): Cxnn, Ex9E, ExA1, Fx07, Fx0A,
Fx15, Fx18. None of these can fault.
-/

namespace Sys2Proof.Machine

/-- Cxnn (R160): a fresh free byte, masked. DESIGN CHOICE (log entry 3): the draw is the opaque `Config.rnd`
at the counter `draws`, which advances. Safe. -/
def execRnd (x : Nibble) (nn : Byte) (s : State) : Result :=
  .next { s.writeV x (Config.rnd s.draws &&& nn) with draws := s.draws + 1 }

/-- Ex9E (R161): the whole byte is compared. -/
def execSkp (x : Nibble) (s : State) : Result := .next (s.skipIf (s.keyIs (s.readV x)))

/-- ExA1 (R162): the complement of Ex9E. -/
def execSknp (x : Nibble) (s : State) : Result := .next (s.skipIf (!s.keyIs (s.readV x)))

/-- Fx07 (R163). -/
def execLdVxDt (x : Nibble) (s : State) : Result := .next (s.writeV x s.dt)

/-- Fx0A (R164): with no key, `pc` goes back to ia and nothing else changes (polling). -/
def execLdVxK (x : Nibble) (s : State) : Result :=
  match s.key with
  | some k => .next (s.writeV x (k.setWidth 8))
  | none => .next { s with pc := s.pc - 2 }

/-- Fx15 (R165). -/
def execLdDtVx (x : Nibble) (s : State) : Result := .next { s with dt := s.readV x }

/-- Fx18 (R166). -/
def execLdStVx (x : Nibble) (s : State) : Result := .next { s with st := s.readV x }

end Sys2Proof.Machine
end

