-- ==== Sys2Proof/Machine/Cycle.lean ====
section
/-!
DEFINITION. The instruction cycle (spec/40_fetch_decode_dispatch.md R90 to R98), the frame stepper around it
(spec/46_frame_stepper_and_host.md R171), and placing a word where the next fetch reads.
-/

namespace Sys2Proof.Machine

/-- The fetch: `MemRead(pc, 2)` (R91). -/
def State.fetch (s : State) : Except Raise (List Byte) := memRead s.mem s.pc.toNat 2

/-- The word the two bytes at `pc` make, the byte at the lower address high (R54). -/
def State.fetchedWord (s : State) : Word := bigEndian (s.mem.read s.pc.toNat) (s.mem.read (s.pc.toNat + 1))

/-- The report of an unimplemented word: appended to the frame's list, nothing else (R95, R171). -/
def State.report (s : State) (ia w : Word) : State := { s with reports := s.reports ++ [⟨ia, w⟩] }

/-- One cycle (R90): fetch, advance, decode, execute. A fetch fault leaves `pc` at ia (R91); a word that matches
no row is reported and only advances `pc` (R95). -/
def cycle (s : State) : Result :=
  match s.fetch with
  | .error r => .next (s.enterFault s.pc r)
  | .ok bytes =>
    match decodeBytes bytes with
    | .ok (i, _) => exec i s.advance
    | .error _ => .next (s.advance.report s.pc (wordOfBytes bytes))

/-- A `step_frame` issued now would do nothing: Paused, or the fault latch is set (R171). -/
def State.stopped (s : State) : Bool := decide (s.run = .paused) || s.fault.isSome

/-- The state a stopped machine is left in: unchanged, with the empty report list as the frame's result (R171). -/
def State.idle (s : State) : State := { s with reports := [] }

/-- The start of an executed frame: each timer decremented once, an empty report list (R171). -/
def State.beginFrame (s : State) : State := { s with dt := tick s.dt, st := tick s.st, reports := [] }

/-- Entering one cycle of a frame: between frames (`cyclesLeft` = 0) a frame begins and `cpf` is read, once;
`cyclesLeft` becomes the number of cycles after this one (R171). Written field by field, so that nothing else
of the state depends on where the frame is. DESIGN CHOICE (log entry 1). -/
def State.enterCycle (s : State) : State :=
  { s with
    dt := if s.cyclesLeft = 0 then tick s.dt else s.dt
    st := if s.cyclesLeft = 0 then tick s.st else s.st
    reports := if s.cyclesLeft = 0 then [] else s.reports
    cyclesLeft := (if s.cyclesLeft = 0 then s.cpf.val else s.cyclesLeft) - 1 }

/-- Leaving a cycle: a fault ends the frame at once (R171, R196). -/
def State.leaveCycle (s : State) : State :=
  { s with cyclesLeft := if s.fault.isSome then 0 else s.cyclesLeft }

/-- Applies a function to a next state. -/
def mapNext (f : State → State) (o : Result) : Result :=
  match o with
  | .next s => .next (f s)
  | .fault r => .fault r
  | .refused r => .refused r

/-- One cycle as part of its frame. -/
def frameCycle (s : State) : Result := mapNext State.leaveCycle (cycle s.enterCycle)

/-- `k` cycles of a frame, ended by the first fault (R171's loop). -/
def runCycles (k : Nat) (s : State) : Result :=
  match k with
  | 0 => .next s
  | k + 1 =>
    match cycle s with
    | .next t => if t.fault.isSome then .next t else runCycles k t
    | .fault r => .fault r
    | .refused r => .refused r

/-- `step_frame()` as the host's one atomic operation (R171). Its result, the report list and the fault, is
read from the fields `reports` and `fault` of the state it answers. -/
def stepFrame (s : State) : Result :=
  if s.stopped then .next s.idle else runCycles s.cpf.val s.beginFrame

/-- The state with the bytes of one instruction where the next fetch reads, and stepping enabled: `pc` stays
where it is unless no fetch is possible there (R91), `run` and `fault` change only if they stop the machine (R171). -/
def State.withFetchBytes (s : State) (bytes : List Byte) : State :=
  let pc := if s.pc.toNat ≤ 4094 then s.pc else BitVec.ofNat 16 Config.programBase
  { s with
    mem := s.mem.writeBytes pc.toNat bytes
    pc := pc
    run := if s.run = .paused then .running else s.run
    fault := none }

end Sys2Proof.Machine
end

