-- ==== Sys2Proof/Machine/Step.lean ====
section
/-!
DEFINITION. One step of the machine: one cycle of the `step_frame` operations the host issues one after another
(spec/46_frame_stepper_and_host.md R170, R171; log entry 1).
-/

namespace Sys2Proof.Machine

/-- One step. A stopped machine (Paused or Halted) changes nothing; otherwise one cycle runs, and if it is the
first of a frame the frame's timer decrement comes before it (R171). -/
def step (s : State) : Host.Outcome State Fault Refusal :=
  if s.stopped then .next s.idle else frameCycle s

/-- `s` with the instruction whose table bits are `w` stored where `step` fetches next (log entry 11). -/
def State.withFetchWord (s : State) (nbits w : Nat) : State := s.withFetchBytes (tableBytes nbits w)

end Sys2Proof.Machine
end

