-- ==== Sys2Proof/Machine/HostOps.lean ====
section
/-!
DEFINITION. The host's operations and read ports (spec/46_frame_stepper_and_host.md, `reset` in
spec/70_reset_and_hazards.md R220). Each is atomic and is issued between frames (R170).
-/

namespace Sys2Proof.Machine

/-- The operations of R170. -/
inductive HostOp where
  | stepFrame
  | load (bytes : List Byte)
  | loadGlyphs
  | pause
  | resume
  | reset
  | keySet (k : Nibble)
  | keyClear
  | setCpf (n : Nat)
  | setShiftSwap (b : Bool)
  | setComplexJump (b : Bool)
deriving DecidableEq, Repr

/-- What an operation answers the host (R170). -/
inductive HostResult where
  /-- The operation has no result. -/
  | done
  | ok
  | refused
  | programTooLarge
  /-- The result of `step_frame`: the reports and the fault latch after the frame (R171). -/
  | frame (reports : List Report) (fault : Option FaultRecord)
deriving DecidableEq, Repr

/-- `load(bytes)` (R172): refused while Halted; too large, nothing is copied or changed. -/
def State.load (s : State) (bytes : List Byte) : State × HostResult :=
  if s.fault.isSome then (s, .refused)
  else if bytes.length > Config.programCapacity then (s, .programTooLarge)
  else ({ s with mem := s.mem.writeBytes Config.programBase bytes, run := .running }, .ok)

/-- `load_glyphs()` with the parameter `GLYPH` as an argument (R173). -/
def State.loadGlyphs (s : State) (glyph : Vector Byte 80) : State × HostResult :=
  ({ s with mem := s.mem.writeBytes Config.glyphBase glyph.toList }, .done)

/-- `pause()` (R174). -/
def State.pause (s : State) : State × HostResult := ({ s with run := .paused }, .done)

/-- `resume()` (R175). -/
def State.resume (s : State) : State × HostResult :=
  if s.fault.isSome then (s, .refused)
  else ({ s with run := if s.run = .paused then .running else s.run }, .ok)

/-- `reset()` (R220): every piece of state but the configuration registers (R222); the random input is not
reseeded (R222), so the model's draw counter stays. -/
def State.hostReset (s : State) : State × HostResult :=
  ({ State.reset with cpf := s.cpf, shiftSwap := s.shiftSwap, complexJump := s.complexJump, draws := s.draws }, .done)

/-- `key_set(k)` (R176). -/
def State.keySet (s : State) (k : Nibble) : State × HostResult := ({ s with key := some k }, .done)

/-- `key_clear()` (R176). -/
def State.keyClear (s : State) : State × HostResult := ({ s with key := none }, .done)

/-- `set_cpf(n)` (R177). -/
def State.setCpf (s : State) (n : Nat) : State × HostResult :=
  if h : 1 ≤ n then ({ s with cpf := ⟨n, h⟩ }, .ok) else (s, .refused)

/-- `set_shift_swap(b)` (R178). -/
def State.setShiftSwap (s : State) (b : Bool) : State × HostResult := ({ s with shiftSwap := b }, .done)

/-- `set_complex_jump(b)` (R178). -/
def State.setComplexJump (s : State) (b : Bool) : State × HostResult := ({ s with complexJump := b }, .done)

/-- `step_frame()` with its result (R171). -/
def State.hostFrame (s : State) : Host.Outcome (State × HostResult) Fault Refusal :=
  match stepFrame s with
  | .next t => .next (t, .frame t.reports t.fault)
  | .fault r => .fault r
  | .refused r => .refused r

/-- An operation on a machine that is between frames. -/
def hostOpNow (o : HostOp) (s : State) : Host.Outcome (State × HostResult) Fault Refusal :=
  match o with
  | .stepFrame => s.hostFrame
  | .load bytes => .next (s.load bytes)
  | .loadGlyphs => .next (s.loadGlyphs Config.glyph)
  | .pause => .next s.pause
  | .resume => .next s.resume
  | .reset => .next s.hostReset
  | .keySet k => .next (s.keySet k)
  | .keyClear => .next s.keyClear
  | .setCpf n => .next (s.setCpf n)
  | .setShiftSwap b => .next (s.setShiftSwap b)
  | .setComplexJump b => .next (s.setComplexJump b)

/-- One host operation. DESIGN CHOICE (log entry 9): an operation issued while a frame is in progress has no meaning
(R170, R180) and is refused by name. Safe. -/
def hostOp (o : HostOp) (s : State) : Host.Outcome (State × HostResult) Fault Refusal :=
  if s.cyclesLeft = 0 then hostOpNow o s else .refused .operationInProgress

/-- The read ports of R179; the stack, `sp`, `key` and the configuration registers have none. -/
inductive Port where
  | pixel (r : Fin 32) (c : Fin 64)
  | pc
  | index
  | register (x : Nibble)
  | dt
  | st
  | memory (a : Addr12)
  | run
  | fault
deriving DecidableEq, Repr

/-- What a port reads. -/
inductive PortValue where
  | bit (b : Bool)
  | byte (b : Byte)
  | word (w : Word)
  | runState (r : RunState)
  | latch (f : Option FaultRecord)
deriving DecidableEq, Repr

/-- The value at a port of a machine that is between frames (R179). -/
def readPortNow (p : Port) (s : State) : PortValue :=
  match p with
  | .pixel r c => .bit (s.fb.pixel r.val c.val)
  | .pc => .word s.pc
  | .index => .word s.I
  | .register x => .byte (s.readV x)
  | .dt => .byte s.dt
  | .st => .byte s.st
  | .memory a => .byte (s.mem.read a.toNat)
  | .run => .runState s.run
  | .fault => .latch s.fault

/-- A read through a port: it has no side effect (R179) and answers only between frames (R57, R232). DESIGN CHOICE
(log entry 9): a read issued while a frame is in progress has no meaning (R170, R180) and is refused by name, so
no pixel drawn and erased within one frame is ever answered. Safe. -/
def readPort (p : Port) (s : State) : Host.Outcome PortValue Fault Refusal :=
  if s.cyclesLeft = 0 then .next (readPortNow p s) else .refused .operationInProgress

/-- The number of a fault cause, as the host reads it (R191, decision D4); 0 is not used. -/
def causeCode (c : Cause) : BitVec 2 :=
  match c with
  | .stackUnderflow => 1
  | .stackOverflow => 2
  | .addressOutOfRange => 3

end Sys2Proof.Machine
end

