-- ==== Sys2Proof/Safety.lean ====
section
/-!
DEFINITION. What claims speak of: the machine's invariant, and the frame predicates ("what is left unchanged").
-/

namespace Sys2Proof.Machine

/-! ## The invariant -/

/-- Every valid return address is one a call pushes, in [0x0002, 0x1000] (R34, R102, R104). -/
def State.returnsBounded (s : State) : Prop :=
  ∀ k : Fin Config.stackDepth, k.val < s.sp.val → 2 ≤ s.stack[k].toNat ∧ s.stack[k].toNat ≤ 0x1000

/-- What the latch may hold (R32, R191, R196): the machine is Paused, `pc` is ia (a fetch fault) or ia + 2, and
`addr` is 0 for a stack fault and in [4096, 0x1000E] for an address fault. -/
def State.faultLegal (s : State) : Prop :=
  ∀ f, s.fault = some f →
    s.run = .paused ∧ (s.pc = f.ia ∨ s.pc = f.ia + 2) ∧
      (f.cause = .addressOutOfRange → 4096 ≤ f.addr.toNat ∧ f.addr.toNat ≤ 0x1000E) ∧
      (f.cause ≠ .addressOutOfRange → f.addr = 0)

/-- A frame in progress is that of a machine which is not stopped, and has fewer than `cpf` cycles left
(R171, R57). -/
def State.frameLegal (s : State) : Prop :=
  s.cyclesLeft < s.cpf.val ∧ (s.cyclesLeft ≠ 0 → s.stopped = false)

/-- The machine's invariant. -/
structure State.Inv (s : State) : Prop where
  /-- Memory is in its canonical form, within the 4096 bytes that exist (R21). -/
  memory : s.mem.wf = true
  /-- R34: `pc` ≤ 0x10FE at all times. -/
  pcBound : s.pc.toNat ≤ 0x10FE
  returns : s.returnsBounded
  latch : s.faultLegal
  frame : s.frameLegal

/-! ## What is left unchanged -/

/-- Every byte of memory reads as before. -/
def SameMemory (s t : State) : Prop := ∀ a, t.mem.read a = s.mem.read a

/-- Every byte of memory outside the `n` bytes at `base` reads as before. -/
def SameMemoryOutside (base n : Nat) (s t : State) : Prop :=
  ∀ a, a < base ∨ base + n ≤ a → t.mem.read a = s.mem.read a

/-- Every general register outside the list reads as before. -/
def SameRegistersBut (xs : List Nibble) (s t : State) : Prop := ∀ r, r ∉ xs → t.readV r = s.readV r

/-- The call stack is as before. -/
def SameStack (s t : State) : Prop := t.sp = s.sp ∧ t.stack = s.stack

/-- Both timers are as before. -/
def SameTimers (s t : State) : Prop := t.dt = s.dt ∧ t.st = s.st

/-- Every pixel is as before. -/
def SameDisplay (s t : State) : Prop := ∀ r c, t.fb.pixel r c = s.fb.pixel r c

/-- What no instruction can write except by a fault: the run state and the latch (R31, R32). -/
def SameRunState (s t : State) : Prop := t.run = s.run ∧ t.fault = s.fault

/-- What only the host can write (R30, R38, R39, R40), the place in the frame, and the reports. -/
def SameHostState (s t : State) : Prop :=
  t.key = s.key ∧ t.cpf = s.cpf ∧ t.shiftSwap = s.shiftSwap ∧ t.complexJump = s.complexJump ∧
    t.cyclesLeft = s.cyclesLeft ∧ t.reports = s.reports

/-- The stack, the timers, the display, the run state, what only the host writes, and the draw counter are as
before: everything but the general registers, `pc`, `I` and memory. -/
def SameBesideData (s t : State) : Prop :=
  SameStack s t ∧ SameTimers s t ∧ SameDisplay s t ∧ SameRunState s t ∧ SameHostState s t ∧ t.draws = s.draws

/-- Everything but the general registers and `pc` is as before. -/
def SameBesideRegisters (s t : State) : Prop := SameMemory s t ∧ t.I = s.I ∧ SameBesideData s t

/-- Fault entry by an instruction, and no other effect of it (R196, R197): the latch records the instruction's
address, `run` is Paused, `pc` stays ia + 2, and every register, byte, pixel, timer and stack entry is as before. -/
def FaultEntered (s t : State) (cause : Cause) (addr : Nat) : Prop :=
  t.fault = some ⟨cause, s.pc - 2, BitVec.ofNat 17 addr⟩ ∧ t.run = .paused ∧ t.pc = s.pc ∧
    SameRegistersBut [] s t ∧ SameMemory s t ∧ t.I = s.I ∧ SameStack s t ∧ SameTimers s t ∧ SameDisplay s t ∧
    SameHostState s t ∧ t.draws = s.draws

/-! ## Words the spec uses -/

/-- The registers an instruction may write, by the table of R35. -/
def writtenRegisters (i : Instr) : List Nibble :=
  match i with
  | .ldImm x _ | .addImm x _ | .ldReg x _ | .orReg x _ | .andReg x _ | .xorReg x _ => [x]
  | .addReg x _ | .subReg x _ | .subnReg x _ | .shr x _ | .shl x _ => [x, 0xF]
  | .rnd x _ | .ldVxDt x | .ldVxK x => [x]
  | .drw _ _ _ | .addI _ => [0xF]
  | .ldRegs x => (List.range (x.toNat + 1)).map fun k => BitVec.ofNat 4 k
  | .cls | .ret | .jp _ | .call _ | .seImm _ _ | .sneImm _ _ | .seReg _ _ | .sneReg _ _ => []
  | .ldI _ | .jpV0 _ _ | .skp _ | .sknp _ | .ldDtVx _ | .ldStVx _ | .ldF _ | .ldB _ | .stRegs _ => []

/-- The pixel (r, c) lies under an unclipped set bit of the sprite that Dxyn draws (R152): the start position
wraps, rows from 32 and columns from 64 on are clipped, the most significant bit is the lowest column. -/
def State.spritePixel (s : State) (x y n : Nibble) (r c : Nat) : Bool :=
  let x0 := (s.readV x).toNat % 64
  let y0 := (s.readV y).toNat % 32
  decide (y0 ≤ r ∧ r < y0 + n.toNat ∧ r < 32 ∧ x0 ≤ c ∧ c < x0 + 8 ∧ c < 64) &&
    (s.mem.read (s.I.toNat + (r - y0))).getLsbD (7 - (c - x0))

/-- The rows of the sprite actually processed (R152). -/
def State.spriteRowCount (s : State) (y n : Nibble) : Nat := min n.toNat (32 - (s.readV y).toNat % 32)

/-- The fault the cycle of this state raises, by the table of R191: its cause and the recorded address. -/
def State.expectedFault (s : State) : Option (Cause × Nat) :=
  if s.pc.toNat > 4094 then some (.addressOutOfRange, max s.pc.toNat 4096)
  else
    match decode s.fetchedWord with
    | .ok .ret => if s.sp.val = 0 then some (.stackUnderflow, 0) else none
    | .ok (.call _) => if s.sp.val = 16 then some (.stackOverflow, 0) else none
    | .ok (.drw _ y n) =>
      if s.spriteRowCount y n > 0 ∧ s.I.toNat + s.spriteRowCount y n - 1 > 4095 then
        some (.addressOutOfRange, max s.I.toNat 4096)
      else none
    | .ok (.ldB _) => if s.I.toNat + 2 > 4095 then some (.addressOutOfRange, max s.I.toNat 4096) else none
    | .ok (.stRegs x) => if s.I.toNat + x.toNat > 4095 then some (.addressOutOfRange, max s.I.toNat 4096) else none
    | .ok (.ldRegs x) => if s.I.toNat + x.toNat > 4095 then some (.addressOutOfRange, max s.I.toNat 4096) else none
    | _ => none

/-- The words of R77's table: those with no row in the opcode map, family by family. -/
def UnimplementedWord (w : Word) : Prop :=
  (fieldOp w = 0x0 ∧ w ≠ 0x00E0 ∧ w ≠ 0x00EE) ∨
  (fieldOp w = 0x5 ∧ fieldN w ≠ 0x0) ∨
  (fieldOp w = 0x8 ∧ fieldN w ∈ [0x8#4, 0x9#4, 0xA#4, 0xB#4, 0xC#4, 0xD#4, 0xF#4]) ∨
  (fieldOp w = 0x9 ∧ fieldN w ≠ 0x0) ∨
  (fieldOp w = 0xE ∧ fieldNN w ∉ [0x9E#8, 0xA1#8]) ∨
  (fieldOp w = 0xF ∧
    fieldNN w ∉ [0x07#8, 0x0A#8, 0x15#8, 0x18#8, 0x1E#8, 0x29#8, 0x33#8, 0x55#8, 0x65#8])

end Sys2Proof.Machine
end

