-- ==== Sys2Proof/Certificates/Slice0/Obligations.lean ====
section
/-!
DEFINITION. The statements for the provers, one `def Obligations.<Name> : Prop` each; OBLIGATIONS.json says of each
which rule of spec/ it formalises. A meaning runs on the state whose `pc` is already ia + 2 (R92), so `s.pc` below
is ia + 2 wherever `exec` is applied to `s`, and the address of the instruction is `s.pc - 2`.
-/

open Sys2Proof Sys2Proof.Machine

/-! ## Encoding and decoding (spec/30_encoding.md) -/

/-- Every well-formed instruction, with every value of its operands, is what its own word decodes to. -/
def Obligations.DecodeOfEncode : Prop := ∀ i : Instr, i.wellFormed = true → decode (encode i) = .ok i

/-- A word that decodes is the word of the instruction it decodes to, and that instruction is well-formed. -/
def Obligations.EncodeOfDecode : Prop :=
  ∀ (w : Word) (i : Instr), decode w = .ok i → encode i = w ∧ i.wellFormed = true

/-- R74: the decoder is the `match`/`mask` pairs of the opcode map: an instruction's word matches its row, a word
that matches a row decodes, no word matches two rows, and a word that matches no row is unimplemented. -/
def Obligations.DecodeFollowsOpcodeMap : Prop :=
  ∀ w : Word,
    (∀ i, decode w = .ok i → opcodeRow i ∈ opcodeRows ∧ rowMatches (opcodeRow i) w = true) ∧
    (∀ row ∈ opcodeRows, rowMatches row w = true → ∃ i, decode w = .ok i ∧ opcodeRow i = row) ∧
    (∀ row ∈ opcodeRows, ∀ row' ∈ opcodeRows, rowMatches row w = true → rowMatches row' w = true → row = row') ∧
    ((∀ row ∈ opcodeRows, rowMatches row w = false) → decode w = .error (.unimplemented w))

/-- R77's table of the unimplemented words, family by family, is exactly the set of words the decoder rejects. -/
def Obligations.UnimplementedWordsAreTheTable : Prop :=
  ∀ w : Word, decode w = .error (.unimplemented w) ↔ UnimplementedWord w

/-- Words written out from the spec's encodings, one per family and more, decode to what they stand for. -/
def Obligations.HandWrittenWordsDecode : Prop :=
  decode 0x00E0 = .ok .cls ∧ decode 0x10E0 = .ok (.jp 0x0E0) ∧ decode 0x5AB0 = .ok (.seReg 0xA 0xB) ∧
  decode 0x8AB7 = .ok (.subnReg 0xA 0xB) ∧ decode 0xD123 = .ok (.drw 0x1 0x2 0x3) ∧
  decode 0xBFFF = .ok (.jpV0 0xFFF 0xF) ∧ decode 0xEFA1 = .ok (.sknp 0xF) ∧ decode 0xF265 = .ok (.ldRegs 0x2) ∧
  decode 0x6005 = .ok (.ldImm 0x0 0x05) ∧ decode 0x01E0 = .error (.unimplemented 0x01E0) ∧
  decode 0x5121 = .error (.unimplemented 0x5121)

/-! ## The cycle, the step and the frame (spec/40_fetch_decode_dispatch.md, spec/46_frame_stepper_and_host.md) -/

/-- A step runs the decoded instruction: when the two bytes at `pc`, big-endian, decode to `i` and the machine is
not stopped, `step` is `exec i` on the state with `pc` advanced by 2 and, at the start of a frame, the timers
decremented; after it, a fault ends the frame. The frame's place (`cyclesLeft`, `reports`) is the model's own
(log entries 1 and 2). -/
def Obligations.StepRunsDecodedInstruction : Prop :=
  ∀ (s : State) (i : Instr), s.stopped = false → s.pc.toNat ≤ 4094 →
    decode (s.mem.read s.pc.toNat ++ s.mem.read (s.pc.toNat + 1)) = .ok i →
    step s = mapNext (fun t => { t with cyclesLeft := if t.fault.isSome then 0 else t.cyclesLeft })
      (exec i
        { s with
          pc := s.pc + 2
          dt := if s.cyclesLeft = 0 then (if s.dt = 0 then 0 else s.dt - 1) else s.dt
          st := if s.cyclesLeft = 0 then (if s.st = 0 then 0 else s.st - 1) else s.st
          reports := if s.cyclesLeft = 0 then [] else s.reports
          cyclesLeft := (if s.cyclesLeft = 0 then s.cpf.val else s.cyclesLeft) - 1 })

/-- R95: a word that matches no row only advances `pc`, is reported once, in order, and the frame goes on. -/
def Obligations.UnimplementedIsReportedAndSkipped : Prop :=
  ∀ (s : State) (w : Word), s.pc.toNat ≤ 4094 → w = s.mem.read s.pc.toNat ++ s.mem.read (s.pc.toNat + 1) →
    (∀ row ∈ opcodeRows, rowMatches row w = false) →
    ∃ t : State, cycle s = .next t ∧ t = { s with pc := s.pc + 2, reports := s.reports ++ [⟨s.pc, w⟩] } ∧
      (s.fault = none → ∀ k, runCycles (k + 1) s = runCycles k t)

/-- R91: the fetch reads the bytes at `pc` and `pc + 1` whatever the parity of `pc`; when `pc` > 4094 it raises
AddressOutOfRange, with `addr` 0x1000 for `pc` = 0x0FFF and `addr` = `pc` from 0x1000 on, and changes nothing but
`fault` and `run`. -/
def Obligations.FetchReadsOrFaults : Prop :=
  ∀ s : State,
    (s.pc.toNat ≤ 4094 → s.fetch = .ok [s.mem.read s.pc.toNat, s.mem.read (s.pc.toNat + 1)]) ∧
    (s.pc = 0x0FFF → cycle s = .next { s with fault := some ⟨.addressOutOfRange, s.pc, 0x1000⟩, run := .paused }) ∧
    (0x1000 ≤ s.pc.toNat →
      cycle s = .next { s with fault := some ⟨.addressOutOfRange, s.pc, s.pc.setWidth 17⟩, run := .paused })

/-- A step or a `step_frame` of a Paused or Halted machine changes nothing, timers included, and reports nothing
(R171's gate; the report list is the model's field, log entry 2). -/
def Obligations.StoppedMachineIsUnchanged : Prop :=
  ∀ s : State, (s.run = .paused ∨ s.fault ≠ none) →
    step s = .next { s with reports := [] } ∧ stepFrame s = .next { s with reports := [] }

/-- The atomic `step_frame` of R171 is reached by single steps: from a machine between frames and not stopped, some
k from 1 to `cpf` steps end in exactly the state `stepFrame` answers, k is `cpf` when no fault was raised, and after
each smaller number of steps the frame is still in progress with no fault. That a step is one cycle of a frame, and
the counter `cyclesLeft` of the cycles still to run, are the model's choice (log entry 1). -/
def Obligations.FrameIsItsCycles : Prop :=
  ∀ s : State, s.cyclesLeft = 0 → s.stopped = false →
    ∃ k, 1 ≤ k ∧ k ≤ s.cpf.val ∧ core.run k s = stepFrame s ∧
      (∀ t, stepFrame s = .next t → t.fault = none → k = s.cpf.val) ∧
      (∀ j, 1 ≤ j → j < k → ∃ t, core.run j s = .next t ∧ t.cyclesLeft = s.cpf.val - j ∧ t.fault = none)

/-- R171, the frame stepper whole: a stopped machine's frame does nothing; otherwise both timers are decremented,
floored at 0, and then cycles run one after another, each from a state without a fault, `cpf` of them unless one
faults, which is then the last; each unimplemented word is appended to the reports; the host is answered the reports
and the latch. -/
def Obligations.FrameRunsCyclesInOrder : Prop :=
  ∀ s : State, s.cyclesLeft = 0 → ∃ t, stepFrame s = .next t ∧
    hostOp .stepFrame s = .next (t, .frame t.reports t.fault) ∧
    (s.stopped = true → t = { s with reports := [] }) ∧
    (s.stopped = false → ∃ (n : Nat) (trace : Nat → State), 1 ≤ n ∧ n ≤ s.cpf.val ∧
      trace 0 = { s with
        dt := if s.dt = 0 then 0 else s.dt - 1
        st := if s.st = 0 then 0 else s.st - 1
        reports := [] } ∧
      trace n = t ∧ (t.fault = none → n = s.cpf.val) ∧
      ∀ k, k < n → (trace k).fault = none ∧ cycle (trace k) = .next (trace (k + 1)) ∧
        ((trace k).pc.toNat ≤ 4094 ∧ UnimplementedWord (trace k).fetchedWord →
          (trace (k + 1)).reports = (trace k).reports ++ [⟨(trace k).pc, (trace k).fetchedWord⟩]) ∧
        (¬ ((trace k).pc.toNat ≤ 4094 ∧ UnimplementedWord (trace k).fetchedWord) →
          (trace (k + 1)).reports = (trace k).reports))

/-- The timers move by the frame stepper once per executed frame, floored at 0, and otherwise only by their own
instruction (R27, R28). -/
def Obligations.TimersMoveOncePerFrame : Prop :=
  ∀ s t : State, step s = .next t →
    ((∀ x, decode s.fetchedWord ≠ .ok (.ldDtVx x)) →
      t.dt.toNat = if s.stopped = false ∧ s.cyclesLeft = 0 then s.dt.toNat - 1 else s.dt.toNat) ∧
    ((∀ x, decode s.fetchedWord ≠ .ok (.ldStVx x)) →
      t.st.toNat = if s.stopped = false ∧ s.cyclesLeft = 0 then s.st.toNat - 1 else s.st.toNat)

/-- A whole frame of a program that jumps to itself, or waits in Fx0A with no key, changes only the timers, by one
decrement, however many cycles it has (R164, R183). -/
def Obligations.WaitingFrameChangesOnlyTimers : Prop :=
  ∀ s : State, s.stopped = false → s.pc.toNat ≤ 4094 →
    ((∃ nnn : Addr12, nnn.toNat = s.pc.toNat ∧ decode s.fetchedWord = .ok (.jp nnn)) ∨
      (s.key = none ∧ ∃ x, decode s.fetchedWord = .ok (.ldVxK x))) →
    stepFrame s = .next
      { s with
        dt := if s.dt = 0 then 0 else s.dt - 1
        st := if s.st = 0 then 0 else s.st - 1
        reports := [] }

/-- The word placed by `withFetchWord` is the one the very next step runs (log entry 11). -/
def Obligations.PlacedWordIsRun : Prop :=
  ∀ (s : State) (w : Nat) (i : Instr), decodeTableWord 16 w = some i →
    step (s.withFetchWord 16 w) =
      mapNext State.leaveCycle (exec i (s.withFetchWord 16 w).enterCycle.advance)

/-- No instruction and no step stops the machine: every one answers a next state (the spec gives every word an
effect, R79, R95, R196). -/
def Obligations.MachineAlwaysAnswers : Prop :=
  (∀ (i : Instr) (s : State), ∃ t, exec i s = .next t) ∧ ∀ s : State, ∃ t, step s = .next t

/-! ## Faults (spec/60_exceptions.md) -/

/-- R191: which cycles raise which fault, with the recorded address, and no other cycle raises any; the codes. -/
def Obligations.FaultCauses : Prop :=
  (∀ s t : State, s.fault = none → cycle s = .next t →
    t.fault = s.expectedFault.map fun p => ⟨p.1, s.pc, BitVec.ofNat 17 p.2⟩) ∧
  causeCode .stackUnderflow = 1 ∧ causeCode .stackOverflow = 2 ∧ causeCode .addressOutOfRange = 3

/-- R196, R197: fault entry is precise. The latch records the instruction's address; `pc` is ia after a fetch fault
and ia + 2 after an execute fault; `run` is Paused from NoRom too; nothing else of the state changes; no further
cycle of the frame runs. -/
def Obligations.FaultsArePrecise : Prop :=
  ∀ (s t : State) (f : FaultRecord), s.fault = none → cycle s = .next t → t.fault = some f →
    f.ia = s.pc ∧
    t = { s with pc := if s.pc.toNat ≤ 4094 then s.pc + 2 else s.pc, fault := some f, run := .paused } ∧
    ∀ k, runCycles (k + 1) s = .next t

/-- R201: Halted is absorbing. A step or `step_frame` changes nothing, `load` and `resume` are refused, every other
operation but `reset` leaves the latch and the run state, and `reset` clears the latch. -/
def Obligations.HaltedUntilReset : Prop :=
  ∀ (s : State) (f : FaultRecord), s.fault = some f → s.run = .paused → s.cyclesLeft = 0 →
    step s = .next { s with reports := [] } ∧
    hostOp .stepFrame s = .next ({ s with reports := [] }, .frame [] (some f)) ∧
    (∀ bytes, hostOp (.load bytes) s = .next (s, .refused)) ∧
    hostOp .resume s = .next (s, .refused) ∧
    (∀ o, o ≠ .reset → ∃ t r, hostOp o s = .next (t, r) ∧ t.fault = some f ∧ t.run = .paused) ∧
    ∃ t, hostOp .reset s = .next (t, .done) ∧ t.fault = none ∧ t.run = .noRom

/-! ## Control transfer (spec/41_control_flow.md) -/

/-- R102: 00EE pops the top entry into `pc` and changes nothing else; with an empty stack it faults. -/
def Obligations.RetPopsOrFaults : Prop :=
  decode 0x00EE = .ok .ret ∧
  (∀ (s : State) (k : Fin Config.stackDepth), s.sp.val = k.val + 1 →
    ∃ t, exec .ret s = .next t ∧ t.pc = s.stack[k] ∧ t.sp.val = k.val ∧ t.stack = s.stack ∧
      SameRegistersBut [] s t ∧ SameMemory s t ∧ t.I = s.I ∧ SameTimers s t ∧ SameDisplay s t ∧
      SameRunState s t ∧ SameHostState s t ∧ t.draws = s.draws) ∧
  ∀ s : State, s.sp.val = 0 → ∃ t, exec .ret s = .next t ∧ FaultEntered s t .stackUnderflow 0

/-- R103: 1nnn sets `pc` to nnn and changes nothing else. -/
def Obligations.JumpSetsPc : Prop :=
  (∀ nnn, decode (packA 0x1 nnn) = .ok (.jp nnn)) ∧
  ∀ (nnn : Addr12) (s : State), ∃ t, exec (.jp nnn) s = .next t ∧ t.pc.toNat = nnn.toNat ∧
    SameRegistersBut [] s t ∧ SameBesideRegisters s t

/-- R104: 2nnn pushes the advanced `pc` and jumps; with a full stack it faults and pushes nothing. -/
def Obligations.CallPushesOrFaults : Prop :=
  (∀ nnn, decode (packA 0x2 nnn) = .ok (.call nnn)) ∧
  (∀ (nnn : Addr12) (s : State) (k : Fin Config.stackDepth), s.sp.val = k.val →
    ∃ t, exec (.call nnn) s = .next t ∧ t.pc.toNat = nnn.toNat ∧ t.sp.val = k.val + 1 ∧ t.stack[k] = s.pc ∧
      (∀ j : Fin Config.stackDepth, j ≠ k → t.stack[j] = s.stack[j]) ∧
      SameRegistersBut [] s t ∧ SameMemory s t ∧ t.I = s.I ∧ SameTimers s t ∧ SameDisplay s t ∧
      SameRunState s t ∧ SameHostState s t ∧ t.draws = s.draws) ∧
  ∀ (nnn : Addr12) (s : State), s.sp.val = 16 →
    ∃ t, exec (.call nnn) s = .next t ∧ FaultEntered s t .stackOverflow 0

/-- A call and the return that matches it: from any state whose stack is the one the call left, 00EE goes back to
the instruction after the call and every older entry is still there (R101, R104, R102). -/
def Obligations.ReturnUndoesCall : Prop :=
  ∀ (nnn : Addr12) (s : State), s.sp.val < 16 →
    ∃ t, exec (.call nnn) s = .next t ∧
      ∀ t' : State, t'.sp = t.sp → t'.stack = t.stack →
        ∃ u, exec .ret t' = .next u ∧ u.pc = s.pc ∧ u.sp = s.sp ∧
          ∀ j : Fin Config.stackDepth, j.val < s.sp.val → u.stack[j] = s.stack[j]

/-- R105, R106: 3xnn skips when V[x] = nn, 4xnn when V[x] ≠ nn; nothing but `pc` changes. -/
def Obligations.SkipsOnImmediate : Prop :=
  (∀ x nn, decode (packXI 0x3 x nn) = .ok (.seImm x nn) ∧ decode (packXI 0x4 x nn) = .ok (.sneImm x nn)) ∧
  ∀ (x : Nibble) (nn : Byte) (s : State),
    (∃ t, exec (.seImm x nn) s = .next t ∧ t.pc = (if s.readV x = nn then s.pc + 2 else s.pc) ∧
      SameRegistersBut [] s t ∧ SameBesideRegisters s t) ∧
    (∃ t, exec (.sneImm x nn) s = .next t ∧ t.pc = (if s.readV x = nn then s.pc else s.pc + 2) ∧
      SameRegistersBut [] s t ∧ SameBesideRegisters s t)

/-- R107, R108: 5xy0 skips when V[x] = V[y], 9xy0 when they differ; nothing but `pc` changes; with n ≠ 0 the word
is unimplemented. -/
def Obligations.SkipsOnRegisters : Prop :=
  (∀ x y, decode (packXYN 0x5 x y 0) = .ok (.seReg x y) ∧ decode (packXYN 0x9 x y 0) = .ok (.sneReg x y)) ∧
  (∀ x y n, n ≠ 0 → decode (packXYN 0x5 x y n) = .error (.unimplemented (packXYN 0x5 x y n)) ∧
    decode (packXYN 0x9 x y n) = .error (.unimplemented (packXYN 0x9 x y n))) ∧
  ∀ (x y : Nibble) (s : State),
    (∃ t, exec (.seReg x y) s = .next t ∧ t.pc = (if s.readV x = s.readV y then s.pc + 2 else s.pc) ∧
      SameRegistersBut [] s t ∧ SameBesideRegisters s t) ∧
    (∃ t, exec (.sneReg x y) s = .next t ∧ t.pc = (if s.readV x = s.readV y then s.pc else s.pc + 2) ∧
      SameRegistersBut [] s t ∧ SameBesideRegisters s t)

/-- R109: Bnnn sets `pc` to nnn plus V[0], or plus V[x] under complex-jump, x the top nibble of nnn: not masked,
no wrap, nothing else changed. -/
def Obligations.JumpWithOffset : Prop :=
  (∀ nnn, decode (packA 0xB nnn) = .ok (.jpV0 nnn (nnn.extractLsb' 8 4))) ∧
  ∀ (nnn : Addr12) (x : Nibble) (s : State), ∃ t, exec (.jpV0 nnn x) s = .next t ∧
    t.pc.toNat = nnn.toNat + (if s.complexJump then (s.readV x).toNat else (s.readV 0).toNat) ∧
    SameRegistersBut [] s t ∧ SameBesideRegisters s t

/-! ## Register loads and the ALU (spec/42_alu.md) -/

/-- R121, R123 to R126: 6xnn, 8xy0, 8xy1, 8xy2, 8xy3 write V[x] alone; VF is not written unless x = 15. -/
def Obligations.LoadsAndLogicWriteOneRegister : Prop :=
  (∀ x nn, decode (packXI 0x6 x nn) = .ok (.ldImm x nn)) ∧
  (∀ x y, decode (packXYN 0x8 x y 0x0) = .ok (.ldReg x y) ∧ decode (packXYN 0x8 x y 0x1) = .ok (.orReg x y) ∧
    decode (packXYN 0x8 x y 0x2) = .ok (.andReg x y) ∧ decode (packXYN 0x8 x y 0x3) = .ok (.xorReg x y)) ∧
  ∀ (x y : Nibble) (nn : Byte) (s : State),
    (∃ t, exec (.ldImm x nn) s = .next t ∧ t.readV x = nn ∧ t.pc = s.pc ∧
      SameRegistersBut [x] s t ∧ SameBesideRegisters s t) ∧
    (∃ t, exec (.ldReg x y) s = .next t ∧ t.readV x = s.readV y ∧ t.pc = s.pc ∧
      SameRegistersBut [x] s t ∧ SameBesideRegisters s t) ∧
    (∃ t, exec (.orReg x y) s = .next t ∧ t.readV x = s.readV x ||| s.readV y ∧ t.pc = s.pc ∧
      SameRegistersBut [x] s t ∧ SameBesideRegisters s t) ∧
    (∃ t, exec (.andReg x y) s = .next t ∧ t.readV x = s.readV x &&& s.readV y ∧ t.pc = s.pc ∧
      SameRegistersBut [x] s t ∧ SameBesideRegisters s t) ∧
    (∃ t, exec (.xorReg x y) s = .next t ∧ t.readV x = s.readV x ^^^ s.readV y ∧ t.pc = s.pc ∧
      SameRegistersBut [x] s t ∧ SameBesideRegisters s t)

/-- R122: 7xnn adds modulo 256 into V[x] and writes no flag. -/
def Obligations.AddImmediateWrapsWithoutFlag : Prop :=
  (∀ x nn, decode (packXI 0x7 x nn) = .ok (.addImm x nn)) ∧
  ∀ (x : Nibble) (nn : Byte) (s : State), ∃ t, exec (.addImm x nn) s = .next t ∧
    (t.readV x).toNat = ((s.readV x).toNat + nn.toNat) % 256 ∧ t.pc = s.pc ∧
    SameRegistersBut [x] s t ∧ SameBesideRegisters s t

/-- R127: 8xy4. VF ends as the carry for every x; V[x] is the sum modulo 256 unless x is 15. -/
def Obligations.AddSetsCarry : Prop :=
  (∀ x y, decode (packXYN 0x8 x y 0x4) = .ok (.addReg x y)) ∧
  ∀ (x y : Nibble) (s : State), ∃ t, exec (.addReg x y) s = .next t ∧
    (x ≠ 0xF → (t.readV x).toNat = ((s.readV x).toNat + (s.readV y).toNat) % 256) ∧
    t.readV 0xF = (if (s.readV x).toNat + (s.readV y).toNat ≥ 256 then 0x01 else 0x00) ∧ t.pc = s.pc ∧
    SameRegistersBut [x, 0xF] s t ∧ SameBesideRegisters s t

/-- R128: 8xy5. VF ends as 0 when V[x] < V[y] and 1 otherwise; V[x] is the difference modulo 256 unless x is 15. -/
def Obligations.SubClearsFlagOnBorrow : Prop :=
  (∀ x y, decode (packXYN 0x8 x y 0x5) = .ok (.subReg x y)) ∧
  ∀ (x y : Nibble) (s : State), ∃ t, exec (.subReg x y) s = .next t ∧
    (x ≠ 0xF → (t.readV x).toNat = ((s.readV x).toNat + 256 - (s.readV y).toNat) % 256) ∧
    t.readV 0xF = (if (s.readV x).toNat < (s.readV y).toNat then 0x00 else 0x01) ∧ t.pc = s.pc ∧
    SameRegistersBut [x, 0xF] s t ∧ SameBesideRegisters s t

/-- R130: 8xy7 in this hardware's form. When V[x] > V[y], VF is 1 and V[x] is not written; otherwise V[x] is
V[y] − V[x] (unless x is 15) and VF is 0. -/
def Obligations.SubnKeepsOnUnderflow : Prop :=
  (∀ x y, decode (packXYN 0x8 x y 0x7) = .ok (.subnReg x y)) ∧
  ∀ (x y : Nibble) (s : State), ∃ t, exec (.subnReg x y) s = .next t ∧
    ((s.readV x).toNat > (s.readV y).toNat →
      t.readV 0xF = 0x01 ∧ (x ≠ 0xF → t.readV x = s.readV x)) ∧
    ((s.readV x).toNat ≤ (s.readV y).toNat →
      t.readV 0xF = 0x00 ∧ (x ≠ 0xF → (t.readV x).toNat = (s.readV y).toNat - (s.readV x).toNat)) ∧
    t.pc = s.pc ∧ SameRegistersBut [x, 0xF] s t ∧ SameBesideRegisters s t

/-- R129, R131: 8xy6 and 8xyE shift V[x], or V[y] under shift-swap, by one bit into V[x] (unless x is 15) and put
the bit shifted out into VF. -/
def Obligations.ShiftsPutLostBitInFlag : Prop :=
  (∀ x y, decode (packXYN 0x8 x y 0x6) = .ok (.shr x y) ∧ decode (packXYN 0x8 x y 0xE) = .ok (.shl x y)) ∧
  ∀ (x y : Nibble) (s : State) (v : Byte), v = (if s.shiftSwap then s.readV y else s.readV x) →
    (∃ t, exec (.shr x y) s = .next t ∧ (x ≠ 0xF → (t.readV x).toNat = v.toNat / 2) ∧
      (t.readV 0xF).toNat = v.toNat % 2 ∧ t.pc = s.pc ∧
      SameRegistersBut [x, 0xF] s t ∧ SameBesideRegisters s t) ∧
    (∃ t, exec (.shl x y) s = .next t ∧ (x ≠ 0xF → (t.readV x).toNat = v.toNat * 2 % 256) ∧
      (t.readV 0xF).toNat = v.toNat / 128 ∧ t.pc = s.pc ∧
      SameRegistersBut [x, 0xF] s t ∧ SameBesideRegisters s t)

/-! ## Index register, loads and stores (spec/43_index_memory.md) -/

/-- R140, R142: Annn sets `I` to nnn, Fx29 to the glyph of the low nibble of V[x]; nothing else changes. -/
def Obligations.IndexLoads : Prop :=
  (∀ nnn, decode (packA 0xA nnn) = .ok (.ldI nnn)) ∧ (∀ x, decode (packXI 0xF x 0x29) = .ok (.ldF x)) ∧
  (∀ (nnn : Addr12) (s : State), ∃ t, exec (.ldI nnn) s = .next t ∧ t.I.toNat = nnn.toNat ∧ t.pc = s.pc ∧
    SameRegistersBut [] s t ∧ SameMemory s t ∧ SameBesideData s t) ∧
  ∀ (x : Nibble) (s : State), ∃ t, exec (.ldF x) s = .next t ∧
    t.I.toNat = 0x50 + 5 * ((s.readV x).toNat % 16) ∧ t.pc = s.pc ∧
    SameRegistersBut [] s t ∧ SameMemory s t ∧ SameBesideData s t

/-- R141: Fx1E stores (I + V[x]) mod 65536 and sets VF to 1 exactly when the stored value exceeds 0x1000; otherwise
VF is not written. -/
def Obligations.AddToIndexSetsFlagAbove0x1000 : Prop :=
  (∀ x, decode (packXI 0xF x 0x1E) = .ok (.addI x)) ∧
  ∀ (x : Nibble) (s : State), ∃ t, exec (.addI x) s = .next t ∧
    t.I.toNat = (s.I.toNat + (s.readV x).toNat) % 65536 ∧
    t.readV 0xF = (if t.I.toNat > 0x1000 then 0x01 else s.readV 0xF) ∧ t.pc = s.pc ∧
    SameRegistersBut [0xF] s t ∧ SameMemory s t ∧ SameBesideData s t

/-- R143: Fx33 stores the three decimal digits of V[x] at I, I + 1, I + 2 and no other byte; when I + 2 > 4095 it
faults and writes nothing. -/
def Obligations.StoreDecimalDigits : Prop :=
  (∀ x, decode (packXI 0xF x 0x33) = .ok (.ldB x)) ∧
  (∀ (x : Nibble) (s : State), s.I.toNat + 2 ≤ 4095 → ∃ t, exec (.ldB x) s = .next t ∧
    (t.mem.read s.I.toNat).toNat = (s.readV x).toNat / 100 ∧
    (t.mem.read (s.I.toNat + 1)).toNat = (s.readV x).toNat / 10 % 10 ∧
    (t.mem.read (s.I.toNat + 2)).toNat = (s.readV x).toNat % 10 ∧
    SameMemoryOutside s.I.toNat 3 s t ∧ t.I = s.I ∧ t.pc = s.pc ∧ SameRegistersBut [] s t ∧ SameBesideData s t) ∧
  ∀ (x : Nibble) (s : State), s.I.toNat + 2 > 4095 → ∃ t, exec (.ldB x) s = .next t ∧
    FaultEntered s t .addressOutOfRange (max s.I.toNat 4096)

/-- R144: Fx55 stores V[0]..V[x] from I on and no other byte, and leaves `I`; when I + x > 4095 it faults and writes
nothing. -/
def Obligations.StoreRegisters : Prop :=
  (∀ x, decode (packXI 0xF x 0x55) = .ok (.stRegs x)) ∧
  (∀ (x : Nibble) (s : State), s.I.toNat + x.toNat ≤ 4095 → ∃ t, exec (.stRegs x) s = .next t ∧
    (∀ k : Nibble, k.toNat ≤ x.toNat → t.mem.read (s.I.toNat + k.toNat) = s.readV k) ∧
    SameMemoryOutside s.I.toNat (x.toNat + 1) s t ∧ t.I = s.I ∧ t.pc = s.pc ∧
    SameRegistersBut [] s t ∧ SameBesideData s t) ∧
  ∀ (x : Nibble) (s : State), s.I.toNat + x.toNat > 4095 → ∃ t, exec (.stRegs x) s = .next t ∧
    FaultEntered s t .addressOutOfRange (max s.I.toNat 4096)

/-- R145: Fx65 loads V[0]..V[x] from I on and no other register, and leaves `I` and memory; when I + x > 4095 it
faults and loads nothing. -/
def Obligations.LoadRegisters : Prop :=
  (∀ x, decode (packXI 0xF x 0x65) = .ok (.ldRegs x)) ∧
  (∀ (x : Nibble) (s : State), s.I.toNat + x.toNat ≤ 4095 → ∃ t, exec (.ldRegs x) s = .next t ∧
    (∀ k : Nibble, k.toNat ≤ x.toNat → t.readV k = s.mem.read (s.I.toNat + k.toNat)) ∧
    (∀ k : Nibble, x.toNat < k.toNat → t.readV k = s.readV k) ∧ t.pc = s.pc ∧ SameBesideRegisters s t) ∧
  ∀ (x : Nibble) (s : State), s.I.toNat + x.toNat > 4095 → ∃ t, exec (.ldRegs x) s = .next t ∧
    FaultEntered s t .addressOutOfRange (max s.I.toNat 4096)

/-- A store into the next instruction's bytes changes what the next cycle fetches, with no intervening action
(R62): Fx55 with `I` at the next instruction makes the next word V[0] ++ V[1]. -/
def Obligations.StoreIsSeenByNextFetch : Prop :=
  ∀ (x : Nibble) (s : State), 1 ≤ x.toNat → s.I = s.pc → s.I.toNat + x.toNat ≤ 4095 →
    ∃ t, exec (.stRegs x) s = .next t ∧ t.fetch = .ok [s.readV 0, s.readV 1]

/-! ## Display (spec/44_display.md) -/

/-- R151: 00E0 turns every pixel off and changes nothing else, VF included. -/
def Obligations.ClearTurnsEveryPixelOff : Prop :=
  decode 0x00E0 = .ok .cls ∧
  ∀ s : State, ∃ t, exec .cls s = .next t ∧ (∀ r c, t.fb.pixel r c = false) ∧ t.pc = s.pc ∧ t.I = s.I ∧
    SameRegistersBut [] s t ∧ SameMemory s t ∧ SameStack s t ∧ SameTimers s t ∧ SameRunState s t ∧
    SameHostState s t ∧ t.draws = s.draws

/-- R152: Dxyn XORs the unclipped set sprite bits into the framebuffer and sets VF to 1 if a pixel that was on is
under one of them, else 0, and changes nothing else; when processed rows reach outside memory it faults and changes
no pixel and not VF. -/
def Obligations.DrawXorsAndDetectsCollision : Prop :=
  (∀ x y n, decode (packXYN 0xD x y n) = .ok (.drw x y n)) ∧
  (∀ (x y n : Nibble) (s : State), s.spriteRowCount y n = 0 ∨ s.I.toNat + s.spriteRowCount y n - 1 ≤ 4095 →
    ∃ t, exec (.drw x y n) s = .next t ∧
      (∀ r c, t.fb.pixel r c = (s.fb.pixel r c ^^ s.spritePixel x y n r c)) ∧
      ((∃ r c, s.spritePixel x y n r c = true ∧ s.fb.pixel r c = true) → t.readV 0xF = 0x01) ∧
      ((∀ r c, s.spritePixel x y n r c = true → s.fb.pixel r c = false) → t.readV 0xF = 0x00) ∧
      SameRegistersBut [0xF] s t ∧ t.pc = s.pc ∧ t.I = s.I ∧ SameMemory s t ∧ SameStack s t ∧ SameTimers s t ∧
      SameRunState s t ∧ SameHostState s t ∧ t.draws = s.draws) ∧
  ∀ (x y n : Nibble) (s : State), 0 < s.spriteRowCount y n → s.I.toNat + s.spriteRowCount y n - 1 > 4095 →
    ∃ t, exec (.drw x y n) s = .next t ∧ FaultEntered s t .addressOutOfRange (max s.I.toNat 4096)

/-- Drawing the same sprite twice restores the framebuffer, and VF after the second draw is 1 exactly when the first
draw turned some pixel on (R153; x and y not 15, whose write of VF would move the second draw). -/
def Obligations.DrawTwiceRestores : Prop :=
  ∀ (x y n : Nibble) (s t : State), x ≠ 0xF → y ≠ 0xF → s.fault = none → exec (.drw x y n) s = .next t →
    t.fault = none → ∃ u, exec (.drw x y n) t = .next u ∧ u.fb = s.fb ∧
      (u.readV 0xF = 0x01 ↔ ∃ r c, s.spritePixel x y n r c = true ∧ s.fb.pixel r c = false)

/-! ## Timers, keys, random (spec/45_timers_keys_random.md) -/

/-- R160, for every value of the free byte: Cxnn writes V[x] alone with the draw's byte masked by nn, so the bits
outside nn are 0, and the next draw is another one. The draw counter is the model's own (log entry 3). -/
def Obligations.RandomByteIsMasked : Prop :=
  (∀ x nn, decode (packXI 0xC x nn) = .ok (.rnd x nn)) ∧
  ∀ (x : Nibble) (nn : Byte) (s : State), ∃ t, exec (.rnd x nn) s = .next t ∧
    t.readV x = Config.rnd s.draws &&& nn ∧ t.readV x &&& ~~~nn = 0 ∧ t.draws = s.draws + 1 ∧ t.pc = s.pc ∧
    SameRegistersBut [x] s t ∧ SameMemory s t ∧ t.I = s.I ∧ SameStack s t ∧ SameTimers s t ∧ SameDisplay s t ∧
    SameRunState s t ∧ SameHostState s t

/-- R161, R162: Ex9E skips exactly when a key is latched whose zero-extended value is the whole byte V[x], ExA1
exactly when not; nothing but `pc` changes. -/
def Obligations.KeySkipsAreComplementary : Prop :=
  (∀ x, decode (packXI 0xE x 0x9E) = .ok (.skp x) ∧ decode (packXI 0xE x 0xA1) = .ok (.sknp x)) ∧
  ∀ (x : Nibble) (s : State),
    (∃ t, exec (.skp x) s = .next t ∧
      ((∃ k, s.key = some k ∧ k.toNat = (s.readV x).toNat) → t.pc = s.pc + 2) ∧
      ((∀ k, s.key = some k → k.toNat ≠ (s.readV x).toNat) → t.pc = s.pc) ∧
      SameRegistersBut [] s t ∧ SameBesideRegisters s t) ∧
    (∃ t, exec (.sknp x) s = .next t ∧
      ((∃ k, s.key = some k ∧ k.toNat = (s.readV x).toNat) → t.pc = s.pc) ∧
      ((∀ k, s.key = some k → k.toNat ≠ (s.readV x).toNat) → t.pc = s.pc + 2) ∧
      SameRegistersBut [] s t ∧ SameBesideRegisters s t)

/-- R164: Fx0A writes the latched key to V[x]; with no key it only takes `pc` back to ia. -/
def Obligations.KeyWaitPolls : Prop :=
  (∀ x, decode (packXI 0xF x 0x0A) = .ok (.ldVxK x)) ∧
  (∀ (x k : Nibble) (s : State), s.key = some k → ∃ t, exec (.ldVxK x) s = .next t ∧
    (t.readV x).toNat = k.toNat ∧ t.pc = s.pc ∧ SameRegistersBut [x] s t ∧ SameBesideRegisters s t) ∧
  ∀ (x : Nibble) (s : State), s.key = none → ∃ t, exec (.ldVxK x) s = .next t ∧
    t.pc = s.pc - 2 ∧ SameRegistersBut [] s t ∧ SameBesideRegisters s t

/-- R163, R165, R166: Fx07 reads the delay timer, Fx15 sets it, Fx18 sets the sound timer; nothing else changes. -/
def Obligations.TimerMoves : Prop :=
  (∀ x, decode (packXI 0xF x 0x07) = .ok (.ldVxDt x) ∧ decode (packXI 0xF x 0x15) = .ok (.ldDtVx x) ∧
    decode (packXI 0xF x 0x18) = .ok (.ldStVx x)) ∧
  ∀ (x : Nibble) (s : State),
    (∃ t, exec (.ldVxDt x) s = .next t ∧ t.readV x = s.dt ∧ t.pc = s.pc ∧
      SameRegistersBut [x] s t ∧ SameBesideRegisters s t) ∧
    (∃ t, exec (.ldDtVx x) s = .next t ∧ t.dt = s.readV x ∧ t.st = s.st ∧ t.pc = s.pc ∧
      SameRegistersBut [] s t ∧ SameMemory s t ∧ t.I = s.I ∧ SameStack s t ∧ SameDisplay s t ∧ SameRunState s t ∧
      SameHostState s t ∧ t.draws = s.draws) ∧
    (∃ t, exec (.ldStVx x) s = .next t ∧ t.st = s.readV x ∧ t.dt = s.dt ∧ t.pc = s.pc ∧
      SameRegistersBut [] s t ∧ SameMemory s t ∧ t.I = s.I ∧ SameStack s t ∧ SameDisplay s t ∧ SameRunState s t ∧
      SameHostState s t ∧ t.draws = s.draws)

/-! ## The whole instruction set -/

/-- The registers an instruction leaves alone, by the table of R35: every one outside its row. -/
def Obligations.RegistersWrittenAsListed : Prop :=
  ∀ (i : Instr) (s t : State), exec i s = .next t → SameRegistersBut (writtenRegisters i) s t

/-- Which instructions can change which storage (R24, R26, R27, R28, R29, R50, R146): every other leaves it. -/
def Obligations.StorageHasItsOwnWriters : Prop :=
  ∀ (i : Instr) (s t : State), exec i s = .next t →
    ((∀ x, i ≠ .ldB x ∧ i ≠ .stRegs x) → SameMemory s t) ∧
    ((∀ x nnn, i ≠ .ldI nnn ∧ i ≠ .addI x ∧ i ≠ .ldF x) → t.I = s.I) ∧
    ((∀ nnn, i ≠ .call nnn ∧ i ≠ .ret) → SameStack s t) ∧
    ((∀ x, i ≠ .ldDtVx x) → t.dt = s.dt) ∧
    ((∀ x, i ≠ .ldStVx x) → t.st = s.st) ∧
    ((∀ x y n, i ≠ .cls ∧ i ≠ .drw x y n) → SameDisplay s t) ∧
    ((∀ x nn, i ≠ .rnd x nn) → t.draws = s.draws)

/-- No instruction can change what only the host writes (R30, R38, R39, R40, R167, R203), and none but the six that
can fault changes the run state or the latch (R31, R32, R191). -/
def Obligations.HostStateIsOutOfReach : Prop :=
  ∀ (i : Instr) (s t : State), exec i s = .next t →
    SameHostState s t ∧
    ((∀ nnn x y n, i ≠ .ret ∧ i ≠ .call nnn ∧ i ≠ .drw x y n ∧ i ≠ .ldB x ∧ i ≠ .stRegs x ∧ i ≠ .ldRegs x) →
      SameRunState s t)

/-! ## Host operations (spec/46_frame_stepper_and_host.md, spec/70_reset_and_hazards.md) -/

/-- R172: `load` copies the bytes to 0x200, sets `run` to Running and changes nothing else; a program of more than
3584 bytes and a load while Halted change nothing. -/
def Obligations.LoadCopiesProgram : Prop :=
  ∀ (bytes : List Byte) (s : State), s.cyclesLeft = 0 →
    (s.fault ≠ none → hostOp (.load bytes) s = .next (s, .refused)) ∧
    (s.fault = none → 3584 < bytes.length → hostOp (.load bytes) s = .next (s, .programTooLarge)) ∧
    (s.fault = none → bytes.length ≤ 3584 → ∃ t, hostOp (.load bytes) s = .next (t, .ok) ∧
      (∀ (k : Nat) (h : k < bytes.length), t.mem.read (0x200 + k) = bytes[k]) ∧
      SameMemoryOutside 0x200 bytes.length s t ∧ t = { s with mem := t.mem, run := .running })

/-- R173: `load_glyphs` writes the 80 bytes of `GLYPH` at 0x050 and changes nothing else, for every `GLYPH`. -/
def Obligations.GlyphTableIsCopied : Prop :=
  ∀ s : State, s.cyclesLeft = 0 → ∃ t, hostOp .loadGlyphs s = .next (t, .done) ∧
    (∀ k : Fin 80, t.mem.read (0x050 + k.val) = Config.glyph[k]) ∧
    SameMemoryOutside 0x050 80 s t ∧ t = { s with mem := t.mem }

/-- R181: the run-state machine, complete, with the refusals of the Halted column. -/
def Obligations.RunStateMachine : Prop :=
  ∀ (o : HostOp) (s : State), s.cyclesLeft = 0 → ∃ t r, hostOp o s = .next (t, r) ∧
    match o with
    | .load bytes =>
      if s.fault = none ∧ bytes.length ≤ 3584 then t.run = .running ∧ t.fault = none
      else t = s ∧ (s.fault ≠ none → r = .refused)
    | .pause => t.run = .paused ∧ t.fault = s.fault
    | .resume =>
      if s.fault = none then t.fault = none ∧ t.run = (if s.run = .paused then .running else s.run)
      else t = s ∧ r = .refused
    | .reset => t.run = .noRom ∧ t.fault = none
    | .stepFrame =>
      (s.stopped = true → t.run = s.run ∧ t.fault = s.fault) ∧
      (s.stopped = false → t.run = if t.fault = none then s.run else .paused)
    | _ => t.run = s.run ∧ t.fault = s.fault

/-- R174, R175: `pause` and `resume` change `run` alone, and a `resume` while Halted is refused. -/
def Obligations.PauseAndResume : Prop :=
  ∀ s : State, s.cyclesLeft = 0 →
    hostOp .pause s = .next ({ s with run := .paused }, .done) ∧
    (s.fault ≠ none → hostOp .resume s = .next (s, .refused)) ∧
    (s.fault = none → s.run = .paused → hostOp .resume s = .next ({ s with run := .running }, .ok)) ∧
    (s.fault = none → s.run ≠ .paused → hostOp .resume s = .next (s, .ok))

/-- R176, R177, R178: the key latch and the configuration registers change alone; `set_cpf(0)` is refused. -/
def Obligations.KeysAndConfiguration : Prop :=
  ∀ s : State, s.cyclesLeft = 0 →
    (∀ k, hostOp (.keySet k) s = .next ({ s with key := some k }, .done)) ∧
    hostOp .keyClear s = .next ({ s with key := none }, .done) ∧
    hostOp (.setCpf 0) s = .next (s, .refused) ∧
    (∀ n, 1 ≤ n → ∃ t, hostOp (.setCpf n) s = .next (t, .ok) ∧ t.cpf.val = n ∧ t = { s with cpf := t.cpf }) ∧
    (∀ b, hostOp (.setShiftSwap b) s = .next ({ s with shiftSwap := b }, .done)) ∧
    (∀ b, hostOp (.setComplexJump b) s = .next ({ s with complexJump := b }, .done))

/-- An operation, or a read through a port, issued while a frame is in progress is refused by the model (the model's
choice, log entry 9: R170 and R180 assume it never to happen and the core gives it no meaning). -/
def Obligations.OperationsOnlyBetweenFrames : Prop :=
  ∀ s : State, s.cyclesLeft ≠ 0 →
    (∀ o : HostOp, hostOp o s = .refused .operationInProgress) ∧
    ∀ p : Port, readPort p s = .refused .operationInProgress

/-- R220, R222: `reset` gives every piece of state its initial value, leaves the configuration registers, and doing
it twice is doing it once. -/
def Obligations.ResetRestoresState : Prop :=
  ∀ s : State, s.cyclesLeft = 0 → ∃ t, hostOp .reset s = .next (t, .done) ∧
    (∀ a, t.mem.read a = 0x00) ∧ (∀ x, t.readV x = 0x00) ∧ t.I = 0x0000 ∧ t.pc = 0x0200 ∧ t.sp.val = 0 ∧
    (∀ k : Fin Config.stackDepth, t.stack[k] = 0x0000) ∧ t.dt = 0x00 ∧ t.st = 0x00 ∧
    (∀ r c, t.fb.pixel r c = false) ∧ t.key = none ∧ t.run = .noRom ∧ t.fault = none ∧
    t.cpf = s.cpf ∧ t.shiftSwap = s.shiftSwap ∧ t.complexJump = s.complexJump ∧
    hostOp .reset t = .next (t, .done)

/-- R221: the power-on state is the state after `reset` with the configuration registers at their power-on
parameters, `CPF0` at least 1. -/
def Obligations.PowerOnState : Prop :=
  (∀ a, State.reset.mem.read a = 0x00) ∧ (∀ x, State.reset.readV x = 0x00) ∧ State.reset.I = 0x0000 ∧
  State.reset.pc = 0x0200 ∧ State.reset.sp.val = 0 ∧
  (∀ k : Fin Config.stackDepth, State.reset.stack[k] = 0x0000) ∧ State.reset.dt = 0x00 ∧ State.reset.st = 0x00 ∧
  (∀ r c, State.reset.fb.pixel r c = false) ∧ State.reset.key = none ∧ State.reset.run = .noRom ∧
  State.reset.fault = none ∧ State.reset.cpf = Config.cpf0 ∧ 1 ≤ State.reset.cpf.val ∧
  State.reset.shiftSwap = Config.shiftSwap0 ∧ State.reset.complexJump = Config.complexJump0 ∧
  core.reset = State.reset

/-! ## The invariant -/

/-- The state after power-on meets the invariant. -/
def Obligations.ResetMeetsInvariant : Prop := State.reset.Inv

/-- Every step keeps the invariant: memory stays canonical and within 4096 bytes, `pc` ≤ 0x10FE (R34), every return
address is in [2, 0x1000] (R102), the latch and the run state agree (R32, R201), the frame counter is within `cpf`. -/
def Obligations.StepKeepsInvariant : Prop := ∀ s t : State, s.Inv → step s = .next t → t.Inv

/-- Every host operation keeps the invariant. -/
def Obligations.HostOperationsKeepInvariant : Prop :=
  ∀ (o : HostOp) (s t : State) (r : HostResult), s.Inv → hostOp o s = .next (t, r) → t.Inv

/-! ## The read ports (spec/46_frame_stepper_and_host.md R179, spec/70_reset_and_hazards.md R232) -/

/-- Between frames every port answers what it names (R179): pixels, `pc`, `I`, the registers, the timers, every byte
of memory, `run` and the latch. The premise is the model's frame counter (log entry 1). -/
def Obligations.PortsReadBetweenFrames : Prop :=
  ∀ s : State, s.cyclesLeft = 0 →
    (∀ (r : Fin 32) (c : Fin 64), readPort (.pixel r c) s = .next (.bit s.fb[r][c])) ∧
    readPort .pc s = .next (.word s.pc) ∧ readPort .index s = .next (.word s.I) ∧
    (∀ x, readPort (.register x) s = .next (.byte (s.readV x))) ∧
    readPort .dt s = .next (.byte s.dt) ∧ readPort .st s = .next (.byte s.st) ∧
    (∀ a, readPort (.memory a) s = .next (.byte (s.mem.read a.toNat))) ∧
    readPort .run s = .next (.runState s.run) ∧ readPort .fault s = .next (.latch s.fault)

/-- A sprite drawn and erased within one frame is never visible (R232): a frame of two cycles that run the same Dxyn
twice (x and y not 15, the bytes in range) ends with every pixel port answering what it answered before the frame,
and between the two steps no port answers (the model's choice, log entries 1 and 9). -/
def Obligations.DrawnAndErasedIsNeverVisible : Prop :=
  ∀ (x y n : Nibble) (s : State), s.cyclesLeft = 0 → s.stopped = false → s.cpf.val = 2 → s.pc.toNat ≤ 4092 →
    decode s.fetchedWord = .ok (.drw x y n) → s.advance.fetchedWord = s.fetchedWord → x ≠ 0xF → y ≠ 0xF →
    (s.spriteRowCount y n = 0 ∨ s.I.toNat + s.spriteRowCount y n - 1 ≤ 4095) →
    (∃ u, step s = .next u ∧ ∀ p, readPort p u = .refused .operationInProgress) ∧
    ∃ t, stepFrame s = .next t ∧ ∀ r c, readPort (.pixel r c) t = readPort (.pixel r c) s
end

