-- ==== Sys2Proof/Laws/Memory.lean ====
section
/-!
SUPPORT. Memory: a read after a write, and that every memory operation keeps the canonical form.
-/

namespace Sys2Proof.Machine

/-! ## Read after write -/

theorem Memory.read_erase (m : Memory) (a b : Nat) :
    (m.erase a).read b = if b = a then Memory.unlisted else m.read b := by
  induction m with
  | nil => simp [Memory.erase, Memory.read]
  | cons c m ih =>
    unfold Memory.erase at ih ⊢
    by_cases hc : c.1 = a
    · rw [List.filter_cons_of_neg (by simpa using hc), ih]
      by_cases hb : b = a
      · simp [hb]
      · simp [hb, Memory.read, hc, Ne.symm hb]
    · rw [List.filter_cons_of_pos (by simpa using hc)]
      simp only [Memory.read, ih]
      by_cases hb : b = a
      · subst hb; simp [hc]
      · simp [hb]

theorem Memory.read_insert (m : Memory) (a : Nat) (b : Byte) (k : Nat) (hm : ∀ c ∈ m, c.1 ≠ a) :
    (m.insert a b).read k = if k = a then b else m.read k := by
  induction m with
  | nil => simp [Memory.insert, Memory.read, eq_comm]
  | cons c m ih =>
    have hc : c.1 ≠ a := hm c (by simp)
    have ih := ih fun d hd => hm d (by simp [hd])
    unfold Memory.insert
    split
    · simp [Memory.read, eq_comm]
    · simp only [Memory.read, ih]
      by_cases hk : k = a
      · subst hk; simp [hc]
      · simp [hk]

/-- The law of one write: the byte written at its address, every other byte as before. -/
theorem Memory.read_write (m : Memory) (a : Nat) (b : Byte) (k : Nat) :
    (m.write a b).read k = if k = a then b else m.read k := by
  unfold Memory.write
  split
  · rename_i hb
    rw [Memory.read_erase, hb]
  · rw [Memory.read_insert _ _ _ _ (by simp [Memory.erase]), Memory.read_erase]
    by_cases hk : k = a <;> simp [hk]

@[simp] theorem Memory.read_write_same (m : Memory) (a : Nat) (b : Byte) : (m.write a b).read a = b := by
  simp [Memory.read_write]

theorem Memory.read_write_other (m : Memory) {a k : Nat} (b : Byte) (h : k ≠ a) :
    (m.write a b).read k = m.read k := by
  simp [Memory.read_write, h]

/-- The law of a multi-byte write: the bytes written at ascending addresses, every other byte as before. -/
theorem Memory.read_writeBytes (m : Memory) (a : Nat) (bytes : List Byte) (k : Nat) :
    (m.writeBytes a bytes).read k = if a ≤ k then bytes.getD (k - a) (m.read k) else m.read k := by
  induction bytes generalizing m a with
  | nil => simp [Memory.writeBytes]
  | cons b bs ih =>
    rw [Memory.writeBytes, ih]
    by_cases h : a + 1 ≤ k
    · have hk : k - a = (k - (a + 1)) + 1 := by omega
      rw [if_pos h, if_pos (by omega), hk, List.getD_cons_succ, Memory.read_write_other _ _ (by omega)]
    · rw [if_neg h, Memory.read_write]
      by_cases hk : k = a
      · simp [hk]
      · rw [if_neg hk, if_neg (by omega)]

theorem Memory.read_writeBytes_outside (m : Memory) (a : Nat) (bytes : List Byte) (k : Nat)
    (h : k < a ∨ a + bytes.length ≤ k) : (m.writeBytes a bytes).read k = m.read k := by
  rw [Memory.read_writeBytes]
  split
  · rw [List.getD_eq_default _ _ (by omega)]
  · rfl

theorem Memory.read_writeBytes_inside (m : Memory) (a : Nat) (bytes : List Byte) (k : Nat)
    (h : k < bytes.length) : (m.writeBytes a bytes).read (a + k) = bytes[k] := by
  rw [Memory.read_writeBytes, if_pos (by omega), Nat.add_sub_cancel_left, List.getD_eq_getElem _ _ h]

@[simp] theorem Memory.readBytes_length (m : Memory) (a n : Nat) : (m.readBytes a n).length = n := by
  simp [Memory.readBytes]

theorem Memory.readBytes_get (m : Memory) (a n k : Nat) (h : k < n) :
    (m.readBytes a n)[k]'(by simpa using h) = m.read (a + k) := by
  simp [Memory.readBytes]

/-! ## The canonical form -/

/-- The canonical form as a property of the list: strictly rising addresses, each existing, no default entry. -/
theorem Memory.wf_iff (m : Memory) :
    m.wf = true ↔ m.Pairwise (fun c d => c.1 < d.1) ∧ ∀ c ∈ m, c.1 < Config.memSize ∧ c.2 ≠ Memory.unlisted := by
  have rising : Memory.rising m = true ↔ m.Pairwise (fun c d => c.1 < d.1) := by
    induction m with
    | nil => simp [Memory.rising]
    | cons c m ih =>
      cases m with
      | nil => simp [Memory.rising]
      | cons d m =>
        rw [Memory.rising, Bool.and_eq_true, ih, List.pairwise_cons (a := c)]
        constructor
        · rintro ⟨h, hm⟩
          refine ⟨fun e he => ?_, hm⟩
          have hcd : c.1 < d.1 := by simpa using h
          rcases List.mem_cons.1 he with rfl | he
          · exact hcd
          · exact hcd.trans ((List.pairwise_cons.1 hm).1 e he)
        · rintro ⟨h, hm⟩
          exact ⟨by simpa using h d (by simp), hm⟩
  simp [Memory.wf, rising]

theorem Memory.wf_nil : Memory.wf [] = true := rfl

theorem Memory.wf_erase {m : Memory} (h : m.wf = true) (a : Nat) : (m.erase a).wf = true := by
  rw [Memory.wf_iff] at h ⊢
  exact ⟨h.1.filter _, fun c hc => h.2 c (List.mem_filter.1 hc).1⟩

theorem Memory.mem_insert {m : Memory} {a : Nat} {b : Byte} {c : Host.Cell} :
    c ∈ m.insert a b ↔ c = (a, b) ∨ c ∈ m := by
  induction m with
  | nil => simp [Memory.insert]
  | cons d m ih =>
    unfold Memory.insert
    split
    · simp
    · rw [List.mem_cons, ih, List.mem_cons]
      tauto

theorem Memory.wf_insert {m : Memory} (h : m.wf = true) {a : Nat} {b : Byte} (ha : a < Config.memSize)
    (hb : b ≠ Memory.unlisted) (hm : ∀ c ∈ m, c.1 ≠ a) : (m.insert a b).wf = true := by
  rw [Memory.wf_iff] at h ⊢
  refine ⟨?_, fun c hc => ?_⟩
  · have hp := h.1
    clear h
    induction m with
    | nil => simp [Memory.insert]
    | cons d m ih =>
      have hd := List.pairwise_cons.1 hp
      unfold Memory.insert
      split
      · rename_i hlt
        refine List.pairwise_cons.2 ⟨fun c hc => ?_, hp⟩
        rcases List.mem_cons.1 hc with rfl | hc
        · exact hlt
        · exact Nat.lt_trans hlt (hd.1 c hc)
      · rename_i hge
        refine List.pairwise_cons.2 ⟨fun c hc => ?_, ih (fun c hc => hm c (by simp [hc])) hd.2⟩
        rcases Memory.mem_insert.1 hc with rfl | hc
        · have := hm d (by simp)
          simp only
          omega
        · exact hd.1 c hc
  · rcases Memory.mem_insert.1 hc with rfl | hc
    · exact ⟨ha, hb⟩
    · exact h.2 c hc

/-- A write to an address that exists keeps the canonical form. -/
theorem Memory.wf_write {m : Memory} (h : m.wf = true) {a : Nat} (ha : a < Config.memSize) (b : Byte) :
    (m.write a b).wf = true := by
  unfold Memory.write
  split
  · exact Memory.wf_erase h a
  · rename_i hb
    exact Memory.wf_insert (Memory.wf_erase h a) ha hb (by simp [Memory.erase])

/-- A multi-byte write within memory keeps the canonical form. -/
theorem Memory.wf_writeBytes {m : Memory} (h : m.wf = true) {a : Nat} {bytes : List Byte}
    (ha : a + bytes.length ≤ Config.memSize) : (m.writeBytes a bytes).wf = true := by
  induction bytes generalizing m a with
  | nil => simpa [Memory.writeBytes] using h
  | cons b bs ih =>
    rw [List.length_cons] at ha
    rw [Memory.writeBytes]
    exact ih (Memory.wf_write h (by omega) b) (by omega)

/-! ## The access primitives (R52, R53) -/

/-- Everything `MemRead` can do. -/
theorem memRead_cases (m : Memory) (addr n : Nat) :
    (addr + n ≤ 4096 ∧ memRead m addr n = .ok (m.readBytes addr n)) ∨
      (4096 < addr + n ∧ memRead m addr n = .error (Raise.outOfRange addr)) := by
  unfold memRead outOfRange
  by_cases h : addr + n - 1 > 4095
  · exact .inr ⟨by omega, by simp [h]⟩
  · exact .inl ⟨by omega, by simp [h]⟩

/-- Everything `MemWrite` can do. -/
theorem memWrite_cases (m : Memory) (addr : Nat) (v : List Byte) :
    (addr + v.length ≤ 4096 ∧ memWrite m addr v = .ok (m.writeBytes addr v)) ∨
      (4096 < addr + v.length ∧ memWrite m addr v = .error (Raise.outOfRange addr)) := by
  unfold memWrite outOfRange
  by_cases h : addr + v.length - 1 > 4095
  · exact .inr ⟨by omega, by simp [h]⟩
  · exact .inl ⟨by omega, by simp [h]⟩

/-- What `MemWrite` answers is in canonical form when the memory was. -/
theorem memWrite_wf {m m' : Memory} {addr : Nat} {v : List Byte} (hm : m.wf = true)
    (h : memWrite m addr v = .ok m') : m'.wf = true := by
  rcases memWrite_cases m addr v with ⟨hr, hw⟩ | ⟨-, hw⟩
  · rw [hw] at h
    cases h
    exact Memory.wf_writeBytes hm hr
  · rw [hw] at h
    cases h

@[simp] theorem Raise.outOfRange_cause (addr : Nat) : (Raise.outOfRange addr).cause = .addressOutOfRange := rfl

@[simp] theorem Raise.outOfRange_addr (addr : Nat) :
    (Raise.outOfRange addr).addr = BitVec.ofNat 17 (max addr 4096) := rfl

end Sys2Proof.Machine
end

