-- ==== Sys2Proof/Laws/State.lean ====
section
/-!
SUPPORT. What each named update of the state does to each field: one lemma a field, so that no later proof
unfolds a record update.
-/

namespace Sys2Proof.Machine

variable (s : State)

/-! A register write (R22). -/

@[simp] theorem State.writeV_mem (x : Nibble) (b : Byte) : (s.writeV x b).mem = s.mem := rfl
@[simp] theorem State.writeV_V (x : Nibble) (b : Byte) : (s.writeV x b).V = s.V.set x.toNat b x.isLt := rfl
@[simp] theorem State.writeV_I (x : Nibble) (b : Byte) : (s.writeV x b).I = s.I := rfl
@[simp] theorem State.writeV_pc (x : Nibble) (b : Byte) : (s.writeV x b).pc = s.pc := rfl
@[simp] theorem State.writeV_stack (x : Nibble) (b : Byte) : (s.writeV x b).stack = s.stack := rfl
@[simp] theorem State.writeV_sp (x : Nibble) (b : Byte) : (s.writeV x b).sp = s.sp := rfl
@[simp] theorem State.writeV_dt (x : Nibble) (b : Byte) : (s.writeV x b).dt = s.dt := rfl
@[simp] theorem State.writeV_st (x : Nibble) (b : Byte) : (s.writeV x b).st = s.st := rfl
@[simp] theorem State.writeV_fb (x : Nibble) (b : Byte) : (s.writeV x b).fb = s.fb := rfl
@[simp] theorem State.writeV_key (x : Nibble) (b : Byte) : (s.writeV x b).key = s.key := rfl
@[simp] theorem State.writeV_run (x : Nibble) (b : Byte) : (s.writeV x b).run = s.run := rfl
@[simp] theorem State.writeV_fault (x : Nibble) (b : Byte) : (s.writeV x b).fault = s.fault := rfl
@[simp] theorem State.writeV_cpf (x : Nibble) (b : Byte) : (s.writeV x b).cpf = s.cpf := rfl
@[simp] theorem State.writeV_shiftSwap (x : Nibble) (b : Byte) : (s.writeV x b).shiftSwap = s.shiftSwap := rfl
@[simp] theorem State.writeV_complexJump (x : Nibble) (b : Byte) : (s.writeV x b).complexJump = s.complexJump := rfl
@[simp] theorem State.writeV_cyclesLeft (x : Nibble) (b : Byte) : (s.writeV x b).cyclesLeft = s.cyclesLeft := rfl
@[simp] theorem State.writeV_reports (x : Nibble) (b : Byte) : (s.writeV x b).reports = s.reports := rfl
@[simp] theorem State.writeV_draws (x : Nibble) (b : Byte) : (s.writeV x b).draws = s.draws := rfl

/-! A flag write (R23). -/

@[simp] theorem State.setFlag_mem (f : Bool) : (s.setFlag f).mem = s.mem := rfl
@[simp] theorem State.setFlag_V (f : Bool) : (s.setFlag f).V = s.V.set 15 (flagByte f) (by decide) := rfl
@[simp] theorem State.setFlag_I (f : Bool) : (s.setFlag f).I = s.I := rfl
@[simp] theorem State.setFlag_pc (f : Bool) : (s.setFlag f).pc = s.pc := rfl
@[simp] theorem State.setFlag_stack (f : Bool) : (s.setFlag f).stack = s.stack := rfl
@[simp] theorem State.setFlag_sp (f : Bool) : (s.setFlag f).sp = s.sp := rfl
@[simp] theorem State.setFlag_dt (f : Bool) : (s.setFlag f).dt = s.dt := rfl
@[simp] theorem State.setFlag_st (f : Bool) : (s.setFlag f).st = s.st := rfl
@[simp] theorem State.setFlag_fb (f : Bool) : (s.setFlag f).fb = s.fb := rfl
@[simp] theorem State.setFlag_key (f : Bool) : (s.setFlag f).key = s.key := rfl
@[simp] theorem State.setFlag_run (f : Bool) : (s.setFlag f).run = s.run := rfl
@[simp] theorem State.setFlag_fault (f : Bool) : (s.setFlag f).fault = s.fault := rfl
@[simp] theorem State.setFlag_cpf (f : Bool) : (s.setFlag f).cpf = s.cpf := rfl
@[simp] theorem State.setFlag_shiftSwap (f : Bool) : (s.setFlag f).shiftSwap = s.shiftSwap := rfl
@[simp] theorem State.setFlag_complexJump (f : Bool) : (s.setFlag f).complexJump = s.complexJump := rfl
@[simp] theorem State.setFlag_cyclesLeft (f : Bool) : (s.setFlag f).cyclesLeft = s.cyclesLeft := rfl
@[simp] theorem State.setFlag_reports (f : Bool) : (s.setFlag f).reports = s.reports := rfl
@[simp] theorem State.setFlag_draws (f : Bool) : (s.setFlag f).draws = s.draws := rfl

/-! The advance of `pc` (R92). -/

@[simp] theorem State.advance_mem : (s.advance).mem = s.mem := rfl
@[simp] theorem State.advance_V : (s.advance).V = s.V := rfl
@[simp] theorem State.advance_I : (s.advance).I = s.I := rfl
@[simp] theorem State.advance_pc : (s.advance).pc = s.pc + 2 := rfl
@[simp] theorem State.advance_stack : (s.advance).stack = s.stack := rfl
@[simp] theorem State.advance_sp : (s.advance).sp = s.sp := rfl
@[simp] theorem State.advance_dt : (s.advance).dt = s.dt := rfl
@[simp] theorem State.advance_st : (s.advance).st = s.st := rfl
@[simp] theorem State.advance_fb : (s.advance).fb = s.fb := rfl
@[simp] theorem State.advance_key : (s.advance).key = s.key := rfl
@[simp] theorem State.advance_run : (s.advance).run = s.run := rfl
@[simp] theorem State.advance_fault : (s.advance).fault = s.fault := rfl
@[simp] theorem State.advance_cpf : (s.advance).cpf = s.cpf := rfl
@[simp] theorem State.advance_shiftSwap : (s.advance).shiftSwap = s.shiftSwap := rfl
@[simp] theorem State.advance_complexJump : (s.advance).complexJump = s.complexJump := rfl
@[simp] theorem State.advance_cyclesLeft : (s.advance).cyclesLeft = s.cyclesLeft := rfl
@[simp] theorem State.advance_reports : (s.advance).reports = s.reports := rfl
@[simp] theorem State.advance_draws : (s.advance).draws = s.draws := rfl

/-! A skip (R100). -/

@[simp] theorem State.skipIf_mem (c : Bool) : (s.skipIf c).mem = s.mem := rfl
@[simp] theorem State.skipIf_V (c : Bool) : (s.skipIf c).V = s.V := rfl
@[simp] theorem State.skipIf_I (c : Bool) : (s.skipIf c).I = s.I := rfl
@[simp] theorem State.skipIf_pc (c : Bool) : (s.skipIf c).pc = if c then s.pc + 2 else s.pc := rfl
@[simp] theorem State.skipIf_stack (c : Bool) : (s.skipIf c).stack = s.stack := rfl
@[simp] theorem State.skipIf_sp (c : Bool) : (s.skipIf c).sp = s.sp := rfl
@[simp] theorem State.skipIf_dt (c : Bool) : (s.skipIf c).dt = s.dt := rfl
@[simp] theorem State.skipIf_st (c : Bool) : (s.skipIf c).st = s.st := rfl
@[simp] theorem State.skipIf_fb (c : Bool) : (s.skipIf c).fb = s.fb := rfl
@[simp] theorem State.skipIf_key (c : Bool) : (s.skipIf c).key = s.key := rfl
@[simp] theorem State.skipIf_run (c : Bool) : (s.skipIf c).run = s.run := rfl
@[simp] theorem State.skipIf_fault (c : Bool) : (s.skipIf c).fault = s.fault := rfl
@[simp] theorem State.skipIf_cpf (c : Bool) : (s.skipIf c).cpf = s.cpf := rfl
@[simp] theorem State.skipIf_shiftSwap (c : Bool) : (s.skipIf c).shiftSwap = s.shiftSwap := rfl
@[simp] theorem State.skipIf_complexJump (c : Bool) : (s.skipIf c).complexJump = s.complexJump := rfl
@[simp] theorem State.skipIf_cyclesLeft (c : Bool) : (s.skipIf c).cyclesLeft = s.cyclesLeft := rfl
@[simp] theorem State.skipIf_reports (c : Bool) : (s.skipIf c).reports = s.reports := rfl
@[simp] theorem State.skipIf_draws (c : Bool) : (s.skipIf c).draws = s.draws := rfl

/-! Fault entry (R196). -/

@[simp] theorem State.enterFault_mem (ia : Word) (r : Raise) : (s.enterFault ia r).mem = s.mem := rfl
@[simp] theorem State.enterFault_V (ia : Word) (r : Raise) : (s.enterFault ia r).V = s.V := rfl
@[simp] theorem State.enterFault_I (ia : Word) (r : Raise) : (s.enterFault ia r).I = s.I := rfl
@[simp] theorem State.enterFault_pc (ia : Word) (r : Raise) : (s.enterFault ia r).pc = s.pc := rfl
@[simp] theorem State.enterFault_stack (ia : Word) (r : Raise) : (s.enterFault ia r).stack = s.stack := rfl
@[simp] theorem State.enterFault_sp (ia : Word) (r : Raise) : (s.enterFault ia r).sp = s.sp := rfl
@[simp] theorem State.enterFault_dt (ia : Word) (r : Raise) : (s.enterFault ia r).dt = s.dt := rfl
@[simp] theorem State.enterFault_st (ia : Word) (r : Raise) : (s.enterFault ia r).st = s.st := rfl
@[simp] theorem State.enterFault_fb (ia : Word) (r : Raise) : (s.enterFault ia r).fb = s.fb := rfl
@[simp] theorem State.enterFault_key (ia : Word) (r : Raise) : (s.enterFault ia r).key = s.key := rfl
@[simp] theorem State.enterFault_run (ia : Word) (r : Raise) : (s.enterFault ia r).run = .paused := rfl
@[simp] theorem State.enterFault_fault (ia : Word) (r : Raise) : (s.enterFault ia r).fault = some ⟨r.cause, ia, r.addr⟩ := rfl
@[simp] theorem State.enterFault_cpf (ia : Word) (r : Raise) : (s.enterFault ia r).cpf = s.cpf := rfl
@[simp] theorem State.enterFault_shiftSwap (ia : Word) (r : Raise) : (s.enterFault ia r).shiftSwap = s.shiftSwap := rfl
@[simp] theorem State.enterFault_complexJump (ia : Word) (r : Raise) : (s.enterFault ia r).complexJump = s.complexJump := rfl
@[simp] theorem State.enterFault_cyclesLeft (ia : Word) (r : Raise) : (s.enterFault ia r).cyclesLeft = s.cyclesLeft := rfl
@[simp] theorem State.enterFault_reports (ia : Word) (r : Raise) : (s.enterFault ia r).reports = s.reports := rfl
@[simp] theorem State.enterFault_draws (ia : Word) (r : Raise) : (s.enterFault ia r).draws = s.draws := rfl

/-! The unimplemented-instruction report (R95). -/

@[simp] theorem State.report_mem (ia w : Word) : (s.report ia w).mem = s.mem := rfl
@[simp] theorem State.report_V (ia w : Word) : (s.report ia w).V = s.V := rfl
@[simp] theorem State.report_I (ia w : Word) : (s.report ia w).I = s.I := rfl
@[simp] theorem State.report_pc (ia w : Word) : (s.report ia w).pc = s.pc := rfl
@[simp] theorem State.report_stack (ia w : Word) : (s.report ia w).stack = s.stack := rfl
@[simp] theorem State.report_sp (ia w : Word) : (s.report ia w).sp = s.sp := rfl
@[simp] theorem State.report_dt (ia w : Word) : (s.report ia w).dt = s.dt := rfl
@[simp] theorem State.report_st (ia w : Word) : (s.report ia w).st = s.st := rfl
@[simp] theorem State.report_fb (ia w : Word) : (s.report ia w).fb = s.fb := rfl
@[simp] theorem State.report_key (ia w : Word) : (s.report ia w).key = s.key := rfl
@[simp] theorem State.report_run (ia w : Word) : (s.report ia w).run = s.run := rfl
@[simp] theorem State.report_fault (ia w : Word) : (s.report ia w).fault = s.fault := rfl
@[simp] theorem State.report_cpf (ia w : Word) : (s.report ia w).cpf = s.cpf := rfl
@[simp] theorem State.report_shiftSwap (ia w : Word) : (s.report ia w).shiftSwap = s.shiftSwap := rfl
@[simp] theorem State.report_complexJump (ia w : Word) : (s.report ia w).complexJump = s.complexJump := rfl
@[simp] theorem State.report_cyclesLeft (ia w : Word) : (s.report ia w).cyclesLeft = s.cyclesLeft := rfl
@[simp] theorem State.report_reports (ia w : Word) : (s.report ia w).reports = s.reports ++ [⟨ia, w⟩] := rfl
@[simp] theorem State.report_draws (ia w : Word) : (s.report ia w).draws = s.draws := rfl

/-! A `step_frame` of a stopped machine (R171). -/

@[simp] theorem State.idle_mem : (s.idle).mem = s.mem := rfl
@[simp] theorem State.idle_V : (s.idle).V = s.V := rfl
@[simp] theorem State.idle_I : (s.idle).I = s.I := rfl
@[simp] theorem State.idle_pc : (s.idle).pc = s.pc := rfl
@[simp] theorem State.idle_stack : (s.idle).stack = s.stack := rfl
@[simp] theorem State.idle_sp : (s.idle).sp = s.sp := rfl
@[simp] theorem State.idle_dt : (s.idle).dt = s.dt := rfl
@[simp] theorem State.idle_st : (s.idle).st = s.st := rfl
@[simp] theorem State.idle_fb : (s.idle).fb = s.fb := rfl
@[simp] theorem State.idle_key : (s.idle).key = s.key := rfl
@[simp] theorem State.idle_run : (s.idle).run = s.run := rfl
@[simp] theorem State.idle_fault : (s.idle).fault = s.fault := rfl
@[simp] theorem State.idle_cpf : (s.idle).cpf = s.cpf := rfl
@[simp] theorem State.idle_shiftSwap : (s.idle).shiftSwap = s.shiftSwap := rfl
@[simp] theorem State.idle_complexJump : (s.idle).complexJump = s.complexJump := rfl
@[simp] theorem State.idle_cyclesLeft : (s.idle).cyclesLeft = s.cyclesLeft := rfl
@[simp] theorem State.idle_reports : (s.idle).reports = [] := rfl
@[simp] theorem State.idle_draws : (s.idle).draws = s.draws := rfl

/-! The start of a frame (R171). -/

@[simp] theorem State.beginFrame_mem : (s.beginFrame).mem = s.mem := rfl
@[simp] theorem State.beginFrame_V : (s.beginFrame).V = s.V := rfl
@[simp] theorem State.beginFrame_I : (s.beginFrame).I = s.I := rfl
@[simp] theorem State.beginFrame_pc : (s.beginFrame).pc = s.pc := rfl
@[simp] theorem State.beginFrame_stack : (s.beginFrame).stack = s.stack := rfl
@[simp] theorem State.beginFrame_sp : (s.beginFrame).sp = s.sp := rfl
@[simp] theorem State.beginFrame_dt : (s.beginFrame).dt = tick s.dt := rfl
@[simp] theorem State.beginFrame_st : (s.beginFrame).st = tick s.st := rfl
@[simp] theorem State.beginFrame_fb : (s.beginFrame).fb = s.fb := rfl
@[simp] theorem State.beginFrame_key : (s.beginFrame).key = s.key := rfl
@[simp] theorem State.beginFrame_run : (s.beginFrame).run = s.run := rfl
@[simp] theorem State.beginFrame_fault : (s.beginFrame).fault = s.fault := rfl
@[simp] theorem State.beginFrame_cpf : (s.beginFrame).cpf = s.cpf := rfl
@[simp] theorem State.beginFrame_shiftSwap : (s.beginFrame).shiftSwap = s.shiftSwap := rfl
@[simp] theorem State.beginFrame_complexJump : (s.beginFrame).complexJump = s.complexJump := rfl
@[simp] theorem State.beginFrame_cyclesLeft : (s.beginFrame).cyclesLeft = s.cyclesLeft := rfl
@[simp] theorem State.beginFrame_reports : (s.beginFrame).reports = [] := rfl
@[simp] theorem State.beginFrame_draws : (s.beginFrame).draws = s.draws := rfl

/-! Entering a cycle of a frame (R171). -/

@[simp] theorem State.enterCycle_mem : (s.enterCycle).mem = s.mem := rfl
@[simp] theorem State.enterCycle_V : (s.enterCycle).V = s.V := rfl
@[simp] theorem State.enterCycle_I : (s.enterCycle).I = s.I := rfl
@[simp] theorem State.enterCycle_pc : (s.enterCycle).pc = s.pc := rfl
@[simp] theorem State.enterCycle_stack : (s.enterCycle).stack = s.stack := rfl
@[simp] theorem State.enterCycle_sp : (s.enterCycle).sp = s.sp := rfl
@[simp] theorem State.enterCycle_dt : (s.enterCycle).dt = if s.cyclesLeft = 0 then tick s.dt else s.dt := rfl
@[simp] theorem State.enterCycle_st : (s.enterCycle).st = if s.cyclesLeft = 0 then tick s.st else s.st := rfl
@[simp] theorem State.enterCycle_fb : (s.enterCycle).fb = s.fb := rfl
@[simp] theorem State.enterCycle_key : (s.enterCycle).key = s.key := rfl
@[simp] theorem State.enterCycle_run : (s.enterCycle).run = s.run := rfl
@[simp] theorem State.enterCycle_fault : (s.enterCycle).fault = s.fault := rfl
@[simp] theorem State.enterCycle_cpf : (s.enterCycle).cpf = s.cpf := rfl
@[simp] theorem State.enterCycle_shiftSwap : (s.enterCycle).shiftSwap = s.shiftSwap := rfl
@[simp] theorem State.enterCycle_complexJump : (s.enterCycle).complexJump = s.complexJump := rfl
@[simp] theorem State.enterCycle_cyclesLeft : (s.enterCycle).cyclesLeft = (if s.cyclesLeft = 0 then s.cpf.val else s.cyclesLeft) - 1 := rfl
@[simp] theorem State.enterCycle_reports : (s.enterCycle).reports = if s.cyclesLeft = 0 then [] else s.reports := rfl
@[simp] theorem State.enterCycle_draws : (s.enterCycle).draws = s.draws := rfl

/-! Leaving a cycle of a frame (R171). -/

@[simp] theorem State.leaveCycle_mem : (s.leaveCycle).mem = s.mem := rfl
@[simp] theorem State.leaveCycle_V : (s.leaveCycle).V = s.V := rfl
@[simp] theorem State.leaveCycle_I : (s.leaveCycle).I = s.I := rfl
@[simp] theorem State.leaveCycle_pc : (s.leaveCycle).pc = s.pc := rfl
@[simp] theorem State.leaveCycle_stack : (s.leaveCycle).stack = s.stack := rfl
@[simp] theorem State.leaveCycle_sp : (s.leaveCycle).sp = s.sp := rfl
@[simp] theorem State.leaveCycle_dt : (s.leaveCycle).dt = s.dt := rfl
@[simp] theorem State.leaveCycle_st : (s.leaveCycle).st = s.st := rfl
@[simp] theorem State.leaveCycle_fb : (s.leaveCycle).fb = s.fb := rfl
@[simp] theorem State.leaveCycle_key : (s.leaveCycle).key = s.key := rfl
@[simp] theorem State.leaveCycle_run : (s.leaveCycle).run = s.run := rfl
@[simp] theorem State.leaveCycle_fault : (s.leaveCycle).fault = s.fault := rfl
@[simp] theorem State.leaveCycle_cpf : (s.leaveCycle).cpf = s.cpf := rfl
@[simp] theorem State.leaveCycle_shiftSwap : (s.leaveCycle).shiftSwap = s.shiftSwap := rfl
@[simp] theorem State.leaveCycle_complexJump : (s.leaveCycle).complexJump = s.complexJump := rfl
@[simp] theorem State.leaveCycle_cyclesLeft : (s.leaveCycle).cyclesLeft = if s.fault.isSome then 0 else s.cyclesLeft := rfl
@[simp] theorem State.leaveCycle_reports : (s.leaveCycle).reports = s.reports := rfl
@[simp] theorem State.leaveCycle_draws : (s.leaveCycle).draws = s.draws := rfl

end Sys2Proof.Machine
end

