-- ==== Sys2Proof/Laws/Cycle.lean ====
section
/-!
SUPPORT. The cycle and the step: everything each can do, said once, so that no proof unfolds them.
-/

namespace Sys2Proof.Machine

/-- Everything a fetch can do: both bytes at `pc`, or AddressOutOfRange (R91). -/
theorem State.fetch_cases (s : State) :
    (s.pc.toNat ≤ 4094 ∧ s.fetch = .ok [s.mem.read s.pc.toNat, s.mem.read (s.pc.toNat + 1)]) ∨
      (4094 < s.pc.toNat ∧ s.fetch = .error (Raise.outOfRange s.pc.toNat)) := by
  rcases memRead_cases s.mem s.pc.toNat 2 with ⟨h, hr⟩ | ⟨h, hr⟩
  · exact .inl ⟨by omega, hr⟩
  · exact .inr ⟨by omega, hr⟩

theorem decodeBytes_pair (hi lo : Byte) :
    decodeBytes [hi, lo] = match decode (bigEndian hi lo) with
      | .ok i => .ok (i, [])
      | .error r => .error r := rfl

/-- A cycle whose fetched word decodes runs that instruction on the advanced state (R90). -/
theorem cycle_of_decode (s : State) (i : Instr) (hp : s.pc.toNat ≤ 4094) (hd : decode s.fetchedWord = .ok i) :
    cycle s = exec i s.advance := by
  rcases s.fetch_cases with ⟨-, hf⟩ | ⟨hlt, -⟩
  · unfold cycle
    unfold State.fetchedWord at hd
    simp only [hf, decodeBytes_pair, hd]
  · omega

/-- A cycle whose fetched word matches no row reports it and advances (R95). -/
theorem cycle_of_reject (s : State) (r : Rejection) (hp : s.pc.toNat ≤ 4094)
    (hd : decode s.fetchedWord = .error r) : cycle s = .next (s.advance.report s.pc s.fetchedWord) := by
  rcases s.fetch_cases with ⟨-, hf⟩ | ⟨hlt, -⟩
  · unfold cycle
    unfold State.fetchedWord at hd
    simp only [hf, decodeBytes_pair, hd]
    rfl
  · omega

/-- A cycle that cannot fetch enters the fault with `pc` not advanced (R91). -/
theorem cycle_of_fetch_fault (s : State) (hp : 4094 < s.pc.toNat) :
    cycle s = .next (s.enterFault s.pc (Raise.outOfRange s.pc.toNat)) := by
  rcases s.fetch_cases with ⟨hle, -⟩ | ⟨-, hf⟩
  · omega
  · unfold cycle
    simp only [hf]

/-- Everything a cycle can do (R90, R97). -/
theorem cycle_cases (s : State) :
    (4094 < s.pc.toNat ∧ cycle s = .next (s.enterFault s.pc (Raise.outOfRange s.pc.toNat))) ∨
      (s.pc.toNat ≤ 4094 ∧ ∃ i, decode s.fetchedWord = .ok i ∧ cycle s = exec i s.advance) ∨
      (s.pc.toNat ≤ 4094 ∧ ∃ r, decode s.fetchedWord = .error r ∧
        cycle s = .next (s.advance.report s.pc s.fetchedWord)) := by
  by_cases hp : s.pc.toNat ≤ 4094
  · cases hd : decode s.fetchedWord with
    | ok i => exact .inr (.inl ⟨hp, i, rfl, cycle_of_decode s i hp hd⟩)
    | error r => exact .inr (.inr ⟨hp, r, rfl, cycle_of_reject s r hp hd⟩)
  · exact .inl ⟨by omega, cycle_of_fetch_fault s (by omega)⟩

/-- Whether the machine is stopped depends on `run` and `fault` alone (R171). -/
theorem State.stopped_iff (s : State) : s.stopped = true ↔ s.run = .paused ∨ s.fault.isSome = true := by
  simp [State.stopped]

theorem step_of_stopped (s : State) (h : s.stopped = true) : step s = .next s.idle := by
  simp [step, h]

theorem step_of_not_stopped (s : State) (h : s.stopped = false) :
    step s = mapNext State.leaveCycle (cycle s.enterCycle) := by
  simp [step, h, frameCycle]

@[simp] theorem mapNext_next (f : State → State) (s : State) : mapNext f (.next s) = .next (f s) := rfl

theorem core_run_zero (s : State) : core.run 0 s = .next s := rfl

/-- A run of one more step starts with that step. -/
theorem core_run_succ (k : Nat) {s t : State} (h : step s = .next t) : core.run (k + 1) s = core.run k t := by
  have : core.step s = .next t := h
  simp [Host.Core.run, this]

/-- Entering a cycle leaves what the fetch reads. -/
@[simp] theorem State.fetchedWord_enterCycle (s : State) : s.enterCycle.fetchedWord = s.fetchedWord := rfl

end Sys2Proof.Machine
end

