-- ==== Sys2Proof/Laws/Decode.lean ====
section
/-!
SUPPORT. The fields of a word and the formats as arithmetic on natural numbers (R71, R72), and each field of
each format, so that no proof about encodings looks at bits.
-/

namespace Sys2Proof

/-- Concatenation is multiplication and addition. -/
theorem toNat_append_eq {n m : Nat} (a : BitVec n) (b : BitVec m) :
    (a ++ b).toNat = a.toNat * 2 ^ m + b.toNat := by
  rw [BitVec.toNat_append, ← Nat.shiftLeft_add_eq_or_of_lt b.isLt, Nat.shiftLeft_eq]

theorem packXI_toNat (op x : Nibble) (nn : Byte) :
    (packXI op x nn).toNat = op.toNat * 4096 + x.toNat * 256 + nn.toNat := by
  have h : (packXI op x nn).toNat = ((op ++ x) ++ nn).toNat := rfl
  rw [h, toNat_append_eq, toNat_append_eq]
  omega

theorem packXYN_toNat (op x y n : Nibble) :
    (packXYN op x y n).toNat = op.toNat * 4096 + x.toNat * 256 + y.toNat * 16 + n.toNat := by
  have h : (packXYN op x y n).toNat = (((op ++ x) ++ y) ++ n).toNat := rfl
  rw [h, toNat_append_eq, toNat_append_eq, toNat_append_eq]
  omega

theorem packA_toNat (op : Nibble) (nnn : Addr12) : (packA op nnn).toNat = op.toNat * 4096 + nnn.toNat := by
  have h : (packA op nnn).toNat = (op ++ nnn).toNat := rfl
  rw [h, toNat_append_eq]
  rfl

theorem fieldOp_toNat (w : Word) : (fieldOp w).toNat = w.toNat / 4096 := by
  have := w.isLt
  simp only [fieldOp, BitVec.extractLsb'_toNat, Nat.shiftRight_eq_div_pow]
  omega

theorem fieldX_toNat (w : Word) : (fieldX w).toNat = w.toNat / 256 % 16 := by
  simp only [fieldX, BitVec.extractLsb'_toNat, Nat.shiftRight_eq_div_pow]

theorem fieldY_toNat (w : Word) : (fieldY w).toNat = w.toNat / 16 % 16 := by
  simp only [fieldY, BitVec.extractLsb'_toNat, Nat.shiftRight_eq_div_pow]

theorem fieldN_toNat (w : Word) : (fieldN w).toNat = w.toNat % 16 := by
  simp [fieldN]

theorem fieldNN_toNat (w : Word) : (fieldNN w).toNat = w.toNat % 256 := by
  simp [fieldNN]

theorem fieldNNN_toNat (w : Word) : (fieldNNN w).toNat = w.toNat % 4096 := by
  simp [fieldNNN]

/-! ## The fields of each format -/

@[simp] theorem fieldOp_packXI (op x : Nibble) (nn : Byte) : fieldOp (packXI op x nn) = op := by
  apply BitVec.eq_of_toNat_eq
  rw [fieldOp_toNat, packXI_toNat]
  have := x.isLt; have := nn.isLt
  omega

@[simp] theorem fieldX_packXI (op x : Nibble) (nn : Byte) : fieldX (packXI op x nn) = x := by
  apply BitVec.eq_of_toNat_eq
  rw [fieldX_toNat, packXI_toNat]
  have := x.isLt; have := nn.isLt
  omega

@[simp] theorem fieldNN_packXI (op x : Nibble) (nn : Byte) : fieldNN (packXI op x nn) = nn := by
  apply BitVec.eq_of_toNat_eq
  rw [fieldNN_toNat, packXI_toNat]
  have := nn.isLt
  omega

@[simp] theorem fieldOp_packXYN (op x y n : Nibble) : fieldOp (packXYN op x y n) = op := by
  apply BitVec.eq_of_toNat_eq
  rw [fieldOp_toNat, packXYN_toNat]
  have := x.isLt; have := y.isLt; have := n.isLt
  omega

@[simp] theorem fieldX_packXYN (op x y n : Nibble) : fieldX (packXYN op x y n) = x := by
  apply BitVec.eq_of_toNat_eq
  rw [fieldX_toNat, packXYN_toNat]
  have := x.isLt; have := y.isLt; have := n.isLt
  omega

@[simp] theorem fieldY_packXYN (op x y n : Nibble) : fieldY (packXYN op x y n) = y := by
  apply BitVec.eq_of_toNat_eq
  rw [fieldY_toNat, packXYN_toNat]
  have := y.isLt; have := n.isLt
  omega

@[simp] theorem fieldN_packXYN (op x y n : Nibble) : fieldN (packXYN op x y n) = n := by
  apply BitVec.eq_of_toNat_eq
  rw [fieldN_toNat, packXYN_toNat]
  have := n.isLt
  omega

@[simp] theorem fieldOp_packA (op : Nibble) (nnn : Addr12) : fieldOp (packA op nnn) = op := by
  apply BitVec.eq_of_toNat_eq
  rw [fieldOp_toNat, packA_toNat]
  have := nnn.isLt
  omega

@[simp] theorem fieldX_packA (op : Nibble) (nnn : Addr12) : fieldX (packA op nnn) = nnn.extractLsb' 8 4 := by
  apply BitVec.eq_of_toNat_eq
  rw [fieldX_toNat, packA_toNat, BitVec.extractLsb'_toNat, Nat.shiftRight_eq_div_pow]
  have := nnn.isLt
  omega

@[simp] theorem fieldNNN_packA (op : Nibble) (nnn : Addr12) : fieldNNN (packA op nnn) = nnn := by
  apply BitVec.eq_of_toNat_eq
  rw [fieldNNN_toNat, packA_toNat]
  have := nnn.isLt
  omega

/-- A word is the format-XI word of its fields. -/
theorem packXI_fields (w : Word) : packXI (fieldOp w) (fieldX w) (fieldNN w) = w := by
  apply BitVec.eq_of_toNat_eq
  rw [packXI_toNat, fieldOp_toNat, fieldX_toNat, fieldNN_toNat]
  omega

/-- A word is the format-XYN word of its fields. -/
theorem packXYN_fields (w : Word) : packXYN (fieldOp w) (fieldX w) (fieldY w) (fieldN w) = w := by
  apply BitVec.eq_of_toNat_eq
  rw [packXYN_toNat, fieldOp_toNat, fieldX_toNat, fieldY_toNat, fieldN_toNat]
  omega

/-- A word is the format-A word of its fields. -/
theorem packA_fields (w : Word) : packA (fieldOp w) (fieldNNN w) = w := by
  apply BitVec.eq_of_toNat_eq
  rw [packA_toNat, fieldOp_toNat, fieldNNN_toNat]
  omega

/-- A format-XYN word as a format-XI word. -/
theorem packXYN_eq_packXI (op x y n : Nibble) : packXYN op x y n = packXI op x (y ++ n) := by
  apply BitVec.eq_of_toNat_eq
  rw [packXYN_toNat, packXI_toNat, toNat_append_eq]
  omega

/-- A format-A word as a format-XI word. -/
theorem packA_eq_packXI (op : Nibble) (nnn : Addr12) :
    packA op nnn = packXI op (nnn.extractLsb' 8 4) (nnn.extractLsb' 0 8) := by
  apply BitVec.eq_of_toNat_eq
  rw [packA_toNat, packXI_toNat]
  simp only [BitVec.extractLsb'_toNat, Nat.shiftRight_eq_div_pow]
  have := nnn.isLt
  omega

/-- Masking a format-XI word masks its fields. -/
theorem packXI_and (a b : Nibble) (c : Byte) (a' b' : Nibble) (c' : Byte) :
    packXI a b c &&& packXI a' b' c' = packXI (a &&& a') (b &&& b') (c &&& c') := by
  unfold packXI
  rw [BitVec.and_append, BitVec.and_append]

end Sys2Proof
end

