-- ==== Sys2Proof/Laws/Display.lean ====
section
/-!
SUPPORT. The framebuffer: a pixel after a flip, and the closed form of a sprite's bytes drawn by XOR (R152).
-/

namespace Sys2Proof.Machine

/-- The pixel (r, c) is one of the 2048. -/
def onGrid (r c : Nat) : Prop := r < 32 ∧ c < 64

theorem Framebuffer.pixel_off_grid (fb : Framebuffer) {r c : Nat} (h : ¬ onGrid r c) : fb.pixel r c = false := by
  unfold Framebuffer.pixel
  exact dif_neg h

theorem Framebuffer.pixel_on_grid (fb : Framebuffer) {r c : Nat} (h : onGrid r c) :
    fb.pixel r c = (fb[r]'h.1)[c]'h.2 := by
  unfold Framebuffer.pixel
  exact dif_pos h

/-- Two framebuffers with equal pixels are equal. -/
theorem Framebuffer.ext_pixel {fb fb' : Framebuffer} (h : ∀ r c, onGrid r c → fb'.pixel r c = fb.pixel r c) :
    fb' = fb := by
  apply Vector.ext
  intro r hr
  apply Vector.ext
  intro c hc
  have := h r c ⟨hr, hc⟩
  rwa [Framebuffer.pixel_on_grid _ ⟨hr, hc⟩, Framebuffer.pixel_on_grid _ ⟨hr, hc⟩] at this

@[simp] theorem Framebuffer.pixel_blank (r c : Nat) : Framebuffer.blank.pixel r c = false := by
  unfold Framebuffer.pixel Framebuffer.blank
  split <;> simp

/-- The law of one flip: that pixel inverted (on the grid), every other pixel as before. -/
theorem Framebuffer.pixel_flip (fb : Framebuffer) (r c r' c' : Nat) (h : onGrid r c) :
    (fb.flip r c).pixel r' c' = (fb.pixel r' c' ^^ decide (r' = r ∧ c' = c)) := by
  by_cases hg : onGrid r' c'
  · rw [Framebuffer.pixel_on_grid _ hg, Framebuffer.pixel_on_grid _ hg]
    unfold Framebuffer.flip
    have hrc : r < 32 ∧ c < 64 := h
    simp only [hrc, and_self, ↓reduceDIte]
    by_cases hr : r' = r
    · subst hr
      by_cases hc : c' = c
      · subst hc; simp
      · simp [hc, Ne.symm hc]
    · simp [hr, Ne.symm hr]
  · rw [Framebuffer.pixel_off_grid _ hg, Framebuffer.pixel_off_grid _ hg]
    by_cases he : r' = r ∧ c' = c
    · exact absurd h (by rw [← he.1, ← he.2]; exact hg)
    · simp [he]

/-- A framebuffer with its collision flag is the result of XORing the pixels of the set `lit` into the
framebuffer `fb`: the flag says that some pixel of the set was on before. -/
structure XorOf (fb : Framebuffer) (hit : Bool) (lit : Nat → Nat → Prop) (after : Framebuffer × Bool) : Prop where
  pixels : ∀ r c, after.1.pixel r c = true ↔ ¬ (fb.pixel r c = true ↔ lit r c)
  flag : after.2 = true ↔ hit = true ∨ ∃ r c, lit r c ∧ fb.pixel r c = true
  grid : ∀ r c, lit r c → onGrid r c

theorem XorOf.none (fb : Framebuffer) (hit : Bool) : XorOf fb hit (fun _ _ => False) (fb, hit) where
  pixels r c := by simp
  flag := by simp
  grid r c h := h.elim

theorem XorOf.congr {fb : Framebuffer} {hit : Bool} {lit lit' : Nat → Nat → Prop} {after : Framebuffer × Bool}
    (h : XorOf fb hit lit after) (hl : ∀ r c, lit' r c ↔ lit r c) : XorOf fb hit lit' after where
  pixels r c := by rw [h.pixels, hl]
  flag := by simp only [h.flag, hl]
  grid r c hc := h.grid r c ((hl r c).1 hc)

/-- One more set bit, on a pixel not drawn before. -/
theorem XorOf.drawBit {fb : Framebuffer} {hit : Bool} {lit : Nat → Nat → Prop} {after : Framebuffer × Bool}
    (h : XorOf fb hit lit after) (bit : Bool) (r c : Nat) (hg : onGrid r c) (hn : ¬ lit r c) :
    XorOf fb hit (fun r' c' => lit r' c' ∨ (bit = true ∧ r' = r ∧ c' = c)) (Machine.drawBit bit r c after) := by
  cases bit with
  | false => simpa [Machine.drawBit] using h
  | true =>
    have hpix : after.1.pixel r c = fb.pixel r c := by
      have := h.pixels r c
      simp only [hn, iff_false, not_not] at this
      exact Bool.eq_iff_iff.2 this
    refine ⟨fun r' c' => ?_, ?_, ?_⟩
    · simp only [Machine.drawBit, if_true, Framebuffer.pixel_flip _ _ _ _ _ hg]
      by_cases he : r' = r ∧ c' = c
      · obtain ⟨rfl, rfl⟩ := he
        simp only [hpix, hn]
        cases fb.pixel r' c' <;> simp
      · simp only [he, decide_false, Bool.xor_false, h.pixels, and_false, or_false]
    · simp only [Machine.drawBit, if_true, Bool.or_eq_true, h.flag, hpix]
      constructor
      · rintro ((h1 | ⟨r', c', h1, h2⟩) | h1)
        · exact .inl h1
        · exact .inr ⟨r', c', .inl h1, h2⟩
        · exact .inr ⟨r, c, .inr ⟨trivial, rfl, rfl⟩, h1⟩
      · rintro (h1 | ⟨r', c', h1 | ⟨-, rfl, rfl⟩, h2⟩)
        · exact .inl (.inl h1)
        · exact .inl (.inr ⟨r', c', h1, h2⟩)
        · exact .inr h2
    · rintro r' c' (h1 | ⟨-, rfl, rfl⟩)
      · exact h.grid r' c' h1
      · exact hg

/-- One sprite byte: the unclipped set bits of the byte are XORed into row `r` (R152). -/
theorem XorOf.drawByte {fb : Framebuffer} {hit : Bool} {lit : Nat → Nat → Prop} {after : Framebuffer × Bool}
    (h : XorOf fb hit lit after) (b : Byte) (r x0 : Nat) (hr : r < 32) (hn : ∀ c, ¬ lit r c) :
    XorOf fb hit
      (fun r' c' => lit r' c' ∨ (r' = r ∧ x0 ≤ c' ∧ c' < x0 + 8 ∧ c' < 64 ∧ b.getLsbD (7 - (c' - x0)) = true))
      (Machine.drawByte b r x0 after) := by
  unfold Machine.drawByte
  suffices H : ∀ k, k ≤ 8 → XorOf fb hit
      (fun r' c' => lit r' c' ∨ (r' = r ∧ x0 ≤ c' ∧ c' < x0 + k ∧ c' < 64 ∧ b.getLsbD (7 - (c' - x0)) = true))
      ((List.range k).foldl
        (fun acc c => if x0 + c ≥ 64 then acc else Machine.drawBit (b.getLsbD (7 - c)) r (x0 + c) acc) after) from
    H 8 le_rfl
  intro k hk
  induction k with
  | zero =>
    refine h.congr fun r' c' => ⟨?_, .inl⟩
    rintro (h1 | ⟨-, h1, h2, -⟩)
    · exact h1
    · omega
  | succ k ih =>
    rw [List.range_succ, List.foldl_append, List.foldl_cons, List.foldl_nil]
    have ih := ih (by omega)
    split
    · rename_i hclip
      refine ih.congr fun r' c' => ?_
      constructor
      · rintro (h1 | ⟨h1, h2, h3, h4, h5⟩)
        · exact .inl h1
        · exact .inr ⟨h1, h2, by omega, h4, h5⟩
      · rintro (h1 | ⟨h1, h2, h3, h4, h5⟩)
        · exact .inl h1
        · exact .inr ⟨h1, h2, by omega, h4, h5⟩
    · rename_i hclip
      refine (ih.drawBit (b.getLsbD (7 - k)) r (x0 + k) ⟨hr, by omega⟩ ?_).congr fun r' c' => ?_
      · rintro (h1 | ⟨-, h2, h3, -⟩)
        · exact hn _ h1
        · omega
      · constructor
        · rintro (h1 | ⟨h1, h2, h3, h4, h5⟩)
          · exact .inl (.inl h1)
          · by_cases hc : c' = x0 + k
            · subst hc
              exact .inr ⟨by simpa using h5, h1, rfl⟩
            · exact .inl (.inr ⟨h1, h2, by omega, h4, h5⟩)
        · rintro ((h1 | ⟨h1, h2, h3, h4, h5⟩) | ⟨h1, h2, rfl⟩)
          · exact .inl h1
          · exact .inr ⟨h1, h2, by omega, h4, h5⟩
          · exact .inr ⟨h2, by omega, by omega, by omega, by simpa using h1⟩

/-- The unclipped set sprite bits of `bytes` drawn at row `y0`, column `x0`, as a set of pixels (R152). -/
def spriteLit (bytes : List Byte) (y0 x0 r c : Nat) : Prop :=
  y0 ≤ r ∧ r < y0 + bytes.length ∧ x0 ≤ c ∧ c < x0 + 8 ∧ c < 64 ∧
    (bytes.getD (r - y0) 0).getLsbD (7 - (c - x0)) = true

/-- All of a sprite's bytes. -/
theorem XorOf.drawBytes {fb : Framebuffer} {hit : Bool} {lit : Nat → Nat → Prop} {after : Framebuffer × Bool}
    (h : XorOf fb hit lit after) (bytes : List Byte) (y0 x0 : Nat) (hr : y0 + bytes.length ≤ 32)
    (hn : ∀ r c, y0 ≤ r → ¬ lit r c) :
    XorOf fb hit (fun r c => lit r c ∨ spriteLit bytes y0 x0 r c) (Machine.drawBytes bytes y0 x0 after) := by
  induction bytes generalizing lit after y0 with
  | nil =>
    refine h.congr fun r c => ⟨?_, .inl⟩
    rintro (h1 | ⟨h1, h2, -⟩)
    · exact h1
    · simp at h2; omega
  | cons b bs ih =>
    rw [List.length_cons] at hr
    rw [Machine.drawBytes]
    refine (ih (h.drawByte b y0 x0 (by omega) fun c => hn y0 c le_rfl) (y0 + 1) (by omega) ?_).congr ?_
    · rintro r c hy (h1 | ⟨rfl, -⟩)
      · exact hn r c (by omega) h1
      · omega
    · intro r c
      unfold spriteLit
      rw [List.length_cons]
      constructor
      · rintro (h1 | ⟨h1, h2, h3, h4, h5, h6⟩)
        · exact .inl (.inl h1)
        · by_cases hy : r = y0
          · subst hy
            exact .inl (.inr ⟨rfl, h3, h4, h5, by simpa using h6⟩)
          · have hk : r - y0 = (r - (y0 + 1)) + 1 := by omega
            rw [hk, List.getD_cons_succ] at h6
            exact .inr ⟨by omega, by omega, h3, h4, h5, h6⟩
      · rintro ((h1 | ⟨rfl, h3, h4, h5, h6⟩) | ⟨h1, h2, h3, h4, h5, h6⟩)
        · exact .inl h1
        · exact .inr ⟨by omega, by omega, h3, h4, h5, by simpa using h6⟩
        · have hk : r - y0 = (r - (y0 + 1)) + 1 := by omega
          refine .inr ⟨by omega, by omega, h3, h4, h5, ?_⟩
          rw [hk, List.getD_cons_succ]
          exact h6

/-- The law of a whole draw from the current framebuffer with no collision yet. -/
theorem drawBytes_spec (fb : Framebuffer) (bytes : List Byte) (y0 x0 : Nat) (hr : y0 + bytes.length ≤ 32) :
    XorOf fb false (spriteLit bytes y0 x0) (drawBytes bytes y0 x0 (fb, false)) :=
  ((XorOf.none fb false).drawBytes bytes y0 x0 hr fun _ _ _ h => h).congr fun _ _ => by simp

/-- The rows processed fit on the grid below the start row (R152). -/
theorem spriteRows_fit (n : Nibble) (a : Byte) : spriteRow a + spriteRows n (spriteRow a) ≤ 32 := by
  unfold spriteRows spriteRow
  omega

end Sys2Proof.Machine
end

