-- ==== Sys2Proof/Laws/Registers.lean ====
section
/-!
SUPPORT. The general registers: a read after a write, a flag write, a block load and a block store.
-/

namespace Sys2Proof.Machine

/-- The law of one register write: the value at its register, every other register as before (R22). -/
theorem State.readV_writeV (s : State) (x : Nibble) (b : Byte) (r : Nibble) :
    (s.writeV x b).readV r = if r = x then b else s.readV r := by
  unfold State.readV State.writeV
  rw [Vector.getElem_set]
  by_cases h : r = x
  · simp [h]
  · have hne : x.toNat ≠ r.toNat := fun he => h (BitVec.eq_of_toNat_eq he.symm)
    simp [h, hne]

@[simp] theorem State.readV_writeV_same (s : State) (x : Nibble) (b : Byte) : (s.writeV x b).readV x = b := by
  simp [State.readV_writeV]

theorem State.readV_writeV_other (s : State) {x r : Nibble} (b : Byte) (h : r ≠ x) :
    (s.writeV x b).readV r = s.readV r := by
  simp [State.readV_writeV, h]

/-- The law of a flag write (R23). -/
theorem State.readV_setFlag (s : State) (f : Bool) (r : Nibble) :
    (s.setFlag f).readV r = if r = 0xF then flagByte f else s.readV r :=
  State.readV_writeV s 0xF (flagByte f) r

@[simp] theorem State.readV_setFlag_flag (s : State) (f : Bool) : (s.setFlag f).readV 15#4 = flagByte f := by
  simp [State.readV_setFlag]

@[simp] theorem flagByte_true : flagByte true = 0x01 := rfl

@[simp] theorem flagByte_false : flagByte false = 0x00 := rfl

/-- Reading a register looks at `V` alone. -/
theorem State.readV_congr {s t : State} (h : t.V = s.V) (r : Nibble) : t.readV r = s.readV r := by
  unfold State.readV
  simp [h]

/-- The law of a block load: registers from `i` on get the bytes in order, every other register is as before. -/
theorem State.readV_writeVs (s : State) (i : Nat) (bytes : List Byte) (h : i + bytes.length ≤ 16) (r : Nibble) :
    (s.writeVs i bytes).readV r = if i ≤ r.toNat then bytes.getD (r.toNat - i) (s.readV r) else s.readV r := by
  induction bytes generalizing s i with
  | nil => simp [State.writeVs]
  | cons b bs ih =>
    rw [List.length_cons] at h
    rw [State.writeVs, ih _ _ (by omega), State.readV_writeV]
    by_cases hlt : i + 1 ≤ r.toNat
    · have hne : r ≠ BitVec.ofNat 4 i := by
        intro he
        rw [he, BitVec.toNat_ofNat, Nat.mod_eq_of_lt (by omega)] at hlt
        omega
      have hk : r.toNat - i = (r.toNat - (i + 1)) + 1 := by omega
      rw [if_pos hlt, if_neg hne, if_pos (by omega), hk, List.getD_cons_succ]
    · rw [if_neg hlt]
      by_cases he : r = BitVec.ofNat 4 i
      · have hr : r.toNat = i := by rw [he, BitVec.toNat_ofNat, Nat.mod_eq_of_lt (by omega)]
        rw [if_pos he, if_pos (by omega), hr, Nat.sub_self, List.getD_cons_zero]
      · have hr : r.toNat ≠ i := fun hr => he (BitVec.eq_of_toNat_eq (by
          rw [BitVec.toNat_ofNat, hr, Nat.mod_eq_of_lt (by omega)]))
        rw [if_neg he, if_neg (by omega)]

/-- A block load changes `V` alone. -/
theorem State.writeVs_eq (s : State) (i : Nat) (bytes : List Byte) :
    s.writeVs i bytes = { s with V := (s.writeVs i bytes).V } := by
  induction bytes generalizing s i with
  | nil => rfl
  | cons b bs ih =>
    rw [State.writeVs, ih]
    rfl

@[simp] theorem State.readVs_length (s : State) (x : Nibble) : (s.readVs x).length = x.toNat + 1 := by
  simp [State.readVs]

theorem State.readVs_get (s : State) (x : Nibble) (k : Nat) (h : k < x.toNat + 1) :
    (s.readVs x)[k]'(by simpa using h) = s.readV (BitVec.ofNat 4 k) := by
  simp [State.readVs]

@[simp] theorem decimalDigits_length (a : Byte) : (decimalDigits a).length = 3 := rfl

end Sys2Proof.Machine
end

