-- ==== Sys2Proof/Laws/Stack.lean ====
section
/-!
SUPPORT. The call-stack controller and fault entry: everything `push`, `pop` and `orRaise` can do.
-/

namespace Sys2Proof.Machine

/-- Everything `Push` can do (R101). -/
theorem State.push_cases (s : State) (v : Word) :
    (∃ h : s.sp.val < Config.stackDepth,
        s.push v = .ok { s with stack := s.stack.set s.sp.val v h, sp := ⟨s.sp.val + 1, Nat.succ_lt_succ h⟩ }) ∨
      (s.sp.val = Config.stackDepth ∧ s.push v = .error ⟨.stackOverflow, 0⟩) := by
  unfold State.push
  by_cases h : s.sp.val < Config.stackDepth
  · exact .inl ⟨h, by rw [dif_pos h]⟩
  · exact .inr ⟨by have := s.sp.isLt; omega, by rw [dif_neg h]⟩

/-- Everything `Pop` can do (R101). -/
theorem State.pop_cases (s : State) :
    (∃ h : s.sp.val - 1 < Config.stackDepth, 1 ≤ s.sp.val ∧
        s.pop = .ok (s.stack[s.sp.val - 1]'h, { s with sp := ⟨s.sp.val - 1, Nat.lt_succ_of_lt h⟩ })) ∨
      (s.sp.val = 0 ∧ s.pop = .error ⟨.stackUnderflow, 0⟩) := by
  unfold State.pop
  by_cases h : s.sp.val = 0
  · exact .inr ⟨h, by rw [dif_pos h]⟩
  · exact .inl ⟨by have := s.sp.isLt; omega, by omega, by rw [dif_neg h]⟩

/-- An instruction that may raise always answers a next state: fault entry, or its effect (R196, R197). -/
theorem orRaise_cases {α : Type} (r : Except Raise α) (s : State) (k : α → State) :
    (∃ e, r = .error e ∧ orRaise r s k = .next (s.enterFault s.ia e)) ∨
      (∃ a, r = .ok a ∧ orRaise r s k = .next (k a)) := by
  cases r with
  | error e => exact .inl ⟨e, rfl, rfl⟩
  | ok a => exact .inr ⟨a, rfl, rfl⟩

@[simp] theorem orRaise_ok {α : Type} (a : α) (s : State) (k : α → State) : orRaise (.ok a) s k = .next (k a) := rfl

@[simp] theorem orRaise_error {α : Type} (e : Raise) (s : State) (k : α → State) :
    orRaise (.error e) s k = .next (s.enterFault s.ia e) := rfl

end Sys2Proof.Machine
end

