-- ==== Sys2Proof/Laws/Exec.lean ====
section
/-!
SUPPORT. Everything each of the six instructions that can fault can do (R191), and the key wait's two outcomes: their effect
or fault entry, each with its condition. The other instructions have one outcome, their definition.
-/

namespace Sys2Proof.Machine

theorem exec_ret_cases (s : State) :
    (∃ h : s.sp.val - 1 < Config.stackDepth, 1 ≤ s.sp.val ∧
        exec .ret s = .next { s with
          pc := s.stack[s.sp.val - 1]'h
          sp := ⟨s.sp.val - 1, Nat.lt_succ_of_lt h⟩ }) ∨
      (s.sp.val = 0 ∧ exec .ret s = .next (s.enterFault s.ia ⟨.stackUnderflow, 0⟩)) := by
  rcases s.pop_cases with ⟨h, hle, hp⟩ | ⟨h, hp⟩
  · exact .inl ⟨h, hle, by rw [exec, execRet, hp]; rfl⟩
  · exact .inr ⟨h, by rw [exec, execRet, hp]; rfl⟩

theorem exec_call_cases (nnn : Addr12) (s : State) :
    (∃ h : s.sp.val < Config.stackDepth,
        exec (.call nnn) s = .next { s with
          stack := s.stack.set s.sp.val s.pc h
          sp := ⟨s.sp.val + 1, Nat.succ_lt_succ h⟩
          pc := nnn.setWidth 16 }) ∨
      (s.sp.val = Config.stackDepth ∧ exec (.call nnn) s = .next (s.enterFault s.ia ⟨.stackOverflow, 0⟩)) := by
  rcases s.push_cases s.pc with ⟨h, hp⟩ | ⟨h, hp⟩
  · exact .inl ⟨h, by rw [exec, execCall, hp]; rfl⟩
  · exact .inr ⟨h, by rw [exec, execCall, hp]; rfl⟩

theorem exec_ldB_cases (x : Nibble) (s : State) :
    (s.I.toNat + 3 ≤ 4096 ∧
        exec (.ldB x) s = .next { s with mem := s.mem.writeBytes s.I.toNat (decimalDigits (s.readV x)) }) ∨
      (4096 < s.I.toNat + 3 ∧ exec (.ldB x) s = .next (s.enterFault s.ia (Raise.outOfRange s.I.toNat))) := by
  rcases memWrite_cases s.mem s.I.toNat (decimalDigits (s.readV x)) with ⟨h, hw⟩ | ⟨h, hw⟩
  · exact .inl ⟨h, by rw [exec, execLdB, State.index, hw]; rfl⟩
  · exact .inr ⟨h, by rw [exec, execLdB, State.index, hw]; rfl⟩

theorem exec_stRegs_cases (x : Nibble) (s : State) :
    (s.I.toNat + (x.toNat + 1) ≤ 4096 ∧
        exec (.stRegs x) s = .next { s with mem := s.mem.writeBytes s.I.toNat (s.readVs x) }) ∨
      (4096 < s.I.toNat + (x.toNat + 1) ∧
        exec (.stRegs x) s = .next (s.enterFault s.ia (Raise.outOfRange s.I.toNat))) := by
  rcases memWrite_cases s.mem s.I.toNat (s.readVs x) with ⟨h, hw⟩ | ⟨h, hw⟩
  · exact .inl ⟨by rwa [State.readVs_length] at h, by rw [exec, execStRegs, State.index, hw]; rfl⟩
  · exact .inr ⟨by rwa [State.readVs_length] at h, by rw [exec, execStRegs, State.index, hw]; rfl⟩

theorem exec_ldRegs_cases (x : Nibble) (s : State) :
    (s.I.toNat + (x.toNat + 1) ≤ 4096 ∧
        exec (.ldRegs x) s = .next (s.writeVs 0 (s.mem.readBytes s.I.toNat (x.toNat + 1)))) ∨
      (4096 < s.I.toNat + (x.toNat + 1) ∧
        exec (.ldRegs x) s = .next (s.enterFault s.ia (Raise.outOfRange s.I.toNat))) := by
  rcases memRead_cases s.mem s.I.toNat (x.toNat + 1) with ⟨h, hr⟩ | ⟨h, hr⟩
  · exact .inl ⟨h, by rw [exec, execLdRegs, State.index, hr]; rfl⟩
  · exact .inr ⟨h, by rw [exec, execLdRegs, State.index, hr]; rfl⟩

/-- The framebuffer and the collision flag that Dxyn leaves when no byte of the sprite is out of range (R152). -/
def State.drawn (s : State) (x y n : Nibble) : Framebuffer × Bool :=
  drawBytes (s.mem.readBytes s.I.toNat (spriteRows n (spriteRow (s.readV y)))) (spriteRow (s.readV y))
    (spriteColumn (s.readV x)) (s.fb, false)

theorem exec_drw_cases (x y n : Nibble) (s : State) :
    ((spriteRows n (spriteRow (s.readV y)) = 0 ∨ s.I.toNat + spriteRows n (spriteRow (s.readV y)) ≤ 4096) ∧
        exec (.drw x y n) s = .next ({ s with fb := (s.drawn x y n).1 }.setFlag (s.drawn x y n).2)) ∨
      (0 < spriteRows n (spriteRow (s.readV y)) ∧ 4096 < s.I.toNat + spriteRows n (spriteRow (s.readV y)) ∧
        exec (.drw x y n) s = .next (s.enterFault s.ia (Raise.outOfRange s.I.toNat))) := by
  unfold State.drawn
  by_cases h0 : spriteRows n (spriteRow (s.readV y)) = 0
  · refine .inl ⟨.inl h0, ?_⟩
    simp only [exec, execDrw, State.spriteBytes, h0, if_true, orRaise_ok]
    rfl
  · rcases memRead_cases s.mem s.I.toNat (spriteRows n (spriteRow (s.readV y))) with ⟨h, hr⟩ | ⟨h, hr⟩
    · refine .inl ⟨.inr h, ?_⟩
      simp only [exec, execDrw, State.spriteBytes, State.index, h0, if_false, hr, orRaise_ok]
    · refine .inr ⟨by omega, h, ?_⟩
      simp only [exec, execDrw, State.spriteBytes, State.index, h0, if_false, hr, orRaise_error]

theorem exec_ldVxK_of_key (x : Nibble) (s : State) (k : Nibble) (h : s.key = some k) :
    exec (.ldVxK x) s = .next (s.writeV x (k.setWidth 8)) := by
  simp only [exec, execLdVxK, h]

theorem exec_ldVxK_of_none (x : Nibble) (s : State) (h : s.key = none) :
    exec (.ldVxK x) s = .next { s with pc := s.pc - 2 } := by
  simp only [exec, execLdVxK, h]

end Sys2Proof.Machine
end

