-- ==== Sys2Proof/Laws/Frames.lean ====
section
/-!
SUPPORT. The frame predicates of Safety.lean from the shape of the state after: each said once, so that a statement about an
instruction is a list of these.
-/

namespace Sys2Proof.Machine

/-- A state that differs in registers and `pc` alone. -/
theorem sameBesideRegisters_of_eq {s t : State} (h : t = { s with V := t.V, pc := t.pc }) :
    SameBesideRegisters s t := by
  rw [h]
  exact ⟨fun _ => rfl, rfl, ⟨rfl, rfl⟩, ⟨rfl, rfl⟩, fun _ _ => rfl, ⟨rfl, rfl⟩, ⟨rfl, rfl, rfl, rfl, rfl, rfl⟩, rfl⟩

/-- A state that differs in registers, `pc`, `I` and memory alone. -/
theorem sameBesideData_of_eq {s t : State} (h : t = { s with V := t.V, pc := t.pc, I := t.I, mem := t.mem }) :
    SameBesideData s t := by
  rw [h]
  exact ⟨⟨rfl, rfl⟩, ⟨rfl, rfl⟩, fun _ _ => rfl, ⟨rfl, rfl⟩, ⟨rfl, rfl, rfl, rfl, rfl, rfl⟩, rfl⟩

/-- A state with the same register file. -/
theorem sameRegistersBut_of_eq {s t : State} (h : t.V = s.V) (xs : List Nibble) : SameRegistersBut xs s t :=
  fun r _ => State.readV_congr h r

/-- One register write. -/
theorem sameRegistersBut_writeV (s : State) (x : Nibble) (b : Byte) : SameRegistersBut [x] s (s.writeV x b) :=
  fun _ hr => State.readV_writeV_other s b (by simpa using hr)

/-- One flag write. -/
theorem sameRegistersBut_setFlag (s : State) (f : Bool) : SameRegistersBut [0xF] s (s.setFlag f) :=
  fun _ hr => State.readV_writeV_other s (flagByte f) (by simpa using hr)

/-- A result and then the flag, the order of every ALU instruction with a flag (R11). -/
theorem sameRegistersBut_writeV_setFlag (s : State) (x : Nibble) (b : Byte) (f : Bool) :
    SameRegistersBut [x, 0xF] s ((s.writeV x b).setFlag f) := by
  intro r hr
  rw [List.mem_cons, not_or] at hr
  rw [sameRegistersBut_setFlag _ f r hr.2, State.readV_writeV_other s b hr.1]

/-- The result that a flag written after it leaves, unless the register is VF (R37). -/
theorem State.readV_writeV_setFlag (s : State) (x : Nibble) (b : Byte) (f : Bool) (h : x ≠ 0xF) :
    ((s.writeV x b).setFlag f).readV x = b := by
  rw [State.readV_setFlag, if_neg h, State.readV_writeV_same]

/-- Fault entry is `FaultEntered` (R196). -/
theorem faultEntered_enterFault (s : State) (e : Raise) (addr : Nat) (h : e.addr = BitVec.ofNat 17 addr) :
    FaultEntered s (s.enterFault s.ia e) e.cause addr :=
  ⟨congrArg (fun a => some (FaultRecord.mk e.cause s.ia a)) h, rfl, rfl, sameRegistersBut_of_eq rfl _, fun _ => rfl, rfl, ⟨rfl, rfl⟩,
    ⟨rfl, rfl⟩, fun _ _ => rfl, ⟨rfl, rfl, rfl, rfl, rfl, rfl⟩, rfl⟩

/-- A latched key is compared as a number with the whole byte (R161). -/
theorem State.keyIs_iff (s : State) (a : Byte) :
    s.keyIs a = true ↔ ∃ k, s.key = some k ∧ k.toNat = a.toNat := by
  unfold State.keyIs
  cases s.key with
  | none => simp
  | some k =>
    have := k.isLt
    have hk : (k.setWidth 8).toNat = k.toNat := by
      rw [BitVec.toNat_setWidth, Nat.mod_eq_of_lt (by omega)]
    rw [decide_eq_true_eq, ← BitVec.toNat_inj, hk]
    exact ⟨fun h => ⟨k, rfl, h⟩, fun ⟨_, h1, h2⟩ => Option.some.inj h1 ▸ h2⟩

end Sys2Proof.Machine
end

