-- ==== Sys2Proof/Laws/HostOps.lean ====
section
/-!
SUPPORT. The host operations and ports: what each is between frames, and everything `load` and `resume` can do.
-/

namespace Sys2Proof.Machine

/-- Between frames an operation runs (R170). -/
theorem hostOp_between_frames (o : HostOp) {s : State} (h : s.cyclesLeft = 0) : hostOp o s = hostOpNow o s := by
  unfold hostOp
  rw [if_pos h]

/-- Between frames a port answers its value (R57, R179). -/
theorem readPort_between_frames (p : Port) {s : State} (h : s.cyclesLeft = 0) :
    readPort p s = .next (readPortNow p s) := by
  unfold readPort
  rw [if_pos h]

/-- Inside a frame no port answers, so nothing of the frame is visible before its end (R232; log entry 9). -/
theorem readPort_answers_iff (p : Port) (s : State) : (∃ v, readPort p s = .next v) ↔ s.cyclesLeft = 0 := by
  unfold readPort
  split <;> simp_all

/-- The three answers of `load`, each with its condition (R172). -/
theorem State.load_cases (s : State) (bytes : List Byte) :
    (s.fault ≠ none ∧ s.load bytes = (s, .refused)) ∨
      (s.fault = none ∧ 3584 < bytes.length ∧ s.load bytes = (s, .programTooLarge)) ∨
      (s.fault = none ∧ bytes.length ≤ 3584 ∧
        s.load bytes = ({ s with mem := s.mem.writeBytes 0x200 bytes, run := .running }, .ok)) := by
  unfold State.load
  cases hf : s.fault with
  | some f => exact .inl ⟨by simp, by simp⟩
  | none =>
    by_cases hl : bytes.length > Config.programCapacity
    · exact .inr (.inl ⟨rfl, hl, by simp [hl]⟩)
    · exact .inr (.inr ⟨rfl, Nat.le_of_not_lt hl, by simp [hl]⟩)

/-- The two answers of `resume`, each with its condition (R175). -/
theorem State.resume_cases (s : State) :
    (s.fault ≠ none ∧ s.resume = (s, .refused)) ∨
      (s.fault = none ∧ s.resume = ({ s with run := if s.run = .paused then .running else s.run }, .ok)) := by
  unfold State.resume
  cases hf : s.fault with
  | some f => exact .inl ⟨by simp, by simp⟩
  | none => exact .inr ⟨rfl, by simp⟩

end Sys2Proof.Machine
end

