-- ==== Sys2Proof/Laws/PerInstr.lean ====
section
/-!
SUPPORT. Statements about every instruction as syntax, one lemma per constructor of `Instr`.
`EncodingFits`: an instruction's word is an instance of its own row of the opcode map and of no other (R74, R75).
-/

namespace Sys2Proof.Laws

/-- The word `w` matches the row `row`, a row of the opcode map, and matches no other row. -/
def MatchesOnly (row : Word × Word) (w : Word) : Prop :=
  row ∈ opcodeRows ∧ ∀ r ∈ opcodeRows, rowMatches r w = true ↔ r = row

/-- The instruction's word is an instance of the instruction's row and of no other. -/
def EncodingFits.Statement (i : Instr) : Prop := MatchesOnly (opcodeRow i) (encode i)

/-! ## Rows as digits

Apart from the two whole-word rows, a row looks at `op` and at some bits of `nn` (R74). -/

/-- A row by its fixed digits: `op`, the mask of `nn`, the value of `nn` under the mask. -/
abbrev Digits := Nibble × Byte × Byte

def Digits.row (d : Digits) : Word × Word := (packXI 0xF 0x0 d.2.1, packXI d.1 0x0 d.2.2)

/-- The rows but the two whole-word ones, in the table's order. -/
def opcodeDigits : List Digits :=
  [(0x1, 0x00, 0x00), (0x2, 0x00, 0x00), (0x3, 0x00, 0x00), (0x4, 0x00, 0x00), (0x5, 0x0F, 0x00), (0x9, 0x0F, 0x00),
   (0x6, 0x00, 0x00), (0x7, 0x00, 0x00)] ++
  [(0x8, 0x0F, 0x00), (0x8, 0x0F, 0x01), (0x8, 0x0F, 0x02), (0x8, 0x0F, 0x03), (0x8, 0x0F, 0x04), (0x8, 0x0F, 0x05),
   (0x8, 0x0F, 0x07), (0x8, 0x0F, 0x06), (0x8, 0x0F, 0x0E)] ++
  [(0xA, 0x00, 0x00), (0xB, 0x00, 0x00), (0xC, 0x00, 0x00), (0xD, 0x00, 0x00), (0xE, 0xFF, 0x9E), (0xE, 0xFF, 0xA1)] ++
  [(0xF, 0xFF, 0x07), (0xF, 0xFF, 0x15), (0xF, 0xFF, 0x18), (0xF, 0xFF, 0x1E), (0xF, 0xFF, 0x0A), (0xF, 0xFF, 0x29),
   (0xF, 0xFF, 0x33), (0xF, 0xFF, 0x55), (0xF, 0xFF, 0x65)]

theorem opcodeRows_eq : opcodeRows = (0xFFFF, 0x00E0) :: (0xFFFF, 0x00EE) :: opcodeDigits.map Digits.row := by rfl

theorem packXI_inj {a b a' b' : Nibble} {c c' : Byte} (h : packXI a b c = packXI a' b' c') :
    a = a' ∧ b = b' ∧ c = c' := by
  have h1 := congrArg fieldOp h
  have h2 := congrArg fieldX h
  have h3 := congrArg fieldNN h
  simpa using And.intro h1 (And.intro h2 h3)

theorem Digits.row_inj {d e : Digits} (h : d.row = e.row) : d = e := by
  have h1 := packXI_inj (congrArg Prod.fst h)
  have h2 := packXI_inj (congrArg Prod.snd h)
  exact Prod.ext h2.1 (Prod.ext h1.2.2 h2.2.2)

theorem Digits.row_matches (d : Digits) (op x : Nibble) (nn : Byte) :
    rowMatches d.row (packXI op x nn) = true ↔ op = d.1 ∧ nn &&& d.2.1 = d.2.2 := by
  have hop : op &&& 0xF#4 = op := BitVec.and_allOnes
  unfold rowMatches Digits.row
  simp only [packXI_and, beq_iff_eq]
  constructor
  · intro h
    have h := packXI_inj h
    exact ⟨by rw [← h.1]; exact hop.symm, h.2.2⟩
  · rintro ⟨rfl, h⟩
    rw [h, show x &&& (0x0 : Nibble) = 0x0 from BitVec.and_zero]
    exact congrArg (fun o => packXI o 0x0 d.2.2) hop

theorem whole_row_matches (e : Byte) (op x : Nibble) (nn : Byte) (hop : op ≠ 0) :
    ¬ rowMatches (0xFFFF, packXI 0x0 0x0 e) (packXI op x nn) = true := by
  have hw : packXI op x nn &&& (0xFFFF : Word) = packXI op x nn := BitVec.and_allOnes
  unfold rowMatches
  simp only [hw, beq_iff_eq]
  exact fun h => hop (packXI_inj h).1

/-- A word outside family 0x0 matches only the row `d` when its digits single `d` out. -/
theorem matchesOnly_of_digits {d : Digits} {op x : Nibble} {nn : Byte} (hop : op ≠ 0) (hd : d ∈ opcodeDigits)
    (h : ∀ e ∈ opcodeDigits, (op = e.1 ∧ nn &&& e.2.1 = e.2.2) ↔ e = d) : MatchesOnly d.row (packXI op x nn) := by
  have whole : ∀ e, ((0xFFFF : Word), packXI 0x0 0x0 e) ≠ d.row := by
    intro e he
    have h1 := (packXI_inj (a := 0xF) (b := 0xF) (c := 0xFF) (congrArg Prod.fst he)).2.1
    exact absurd h1 (by decide)
  refine ⟨?_, fun r hr => ?_⟩
  · rw [opcodeRows_eq]
    exact List.mem_cons_of_mem _ (List.mem_cons_of_mem _ (List.mem_map_of_mem hd))
  · rw [opcodeRows_eq, List.mem_cons, List.mem_cons, List.mem_map] at hr
    rcases hr with rfl | rfl | ⟨e, he, rfl⟩
    · exact iff_of_false (whole_row_matches 0xE0 op x nn hop) (whole 0xE0)
    · exact iff_of_false (whole_row_matches 0xEE op x nn hop) (whole 0xEE)
    · rw [Digits.row_matches, h e he]
      exact ⟨congrArg _, Digits.row_inj⟩

/-- The low nibble of `y ++ n`, as the masks of families 0x5, 0x8 and 0x9 see it. -/
theorem low_nibble (y n : Nibble) : (y ++ n : Byte) &&& 0x0F#8 = (0x0#4 ++ n : Byte) := by
  have h : 0x0F#8 = (0x0#4 ++ 0xF#4 : Byte) := rfl
  rw [h, BitVec.and_append, show y &&& 0x0#4 = 0x0#4 from BitVec.and_zero,
    show n &&& 0xF#4 = n from BitVec.and_allOnes]

/-- The statement from the instruction's row as digits and its word as `op`, `x`, `nn`. -/
theorem fits {i : Instr} {d : Digits} {op x : Nibble} {nn : Byte} (hrow : opcodeRow i = d.row)
    (hword : encode i = packXI op x nn) (hop : op ≠ 0) (hd : d ∈ opcodeDigits)
    (h : ∀ e ∈ opcodeDigits, (op = e.1 ∧ nn &&& e.2.1 = e.2.2) ↔ e = d) : EncodingFits.Statement i := by
  unfold EncodingFits.Statement
  rw [hrow, hword]
  exact matchesOnly_of_digits hop hd h

/-- The two whole-word rows: a word of family 0x0 matches no row of digits. -/
theorem fits_whole {e : Byte} (he : e = 0xE0 ∨ e = 0xEE) : MatchesOnly (0xFFFF, packXI 0x0 0x0 e) (packXI 0x0 0x0 e) := by
  have nonzero : ∀ d ∈ opcodeDigits, (0x0 : Nibble) ≠ d.1 := by simp [opcodeDigits]
  have rows : ∀ e' : Byte, rowMatches (0xFFFF, packXI 0x0 0x0 e') (packXI 0x0 0x0 e) = true ↔
      ((0xFFFF : Word), packXI 0x0 0x0 e') = (0xFFFF, packXI 0x0 0x0 e) := by
    intro e'
    have hw : packXI 0x0 0x0 e &&& (0xFFFF : Word) = packXI 0x0 0x0 e := BitVec.and_allOnes
    simp only [rowMatches, hw, beq_iff_eq, Prod.mk.injEq, true_and]
    exact eq_comm
  refine ⟨?_, fun r hr => ?_⟩
  · rw [opcodeRows_eq]
    rcases he with rfl | rfl
    · exact List.mem_cons_self
    · exact List.mem_cons_of_mem _ List.mem_cons_self
  · rw [opcodeRows_eq, List.mem_cons, List.mem_cons, List.mem_map] at hr
    rcases hr with rfl | rfl | ⟨d, hd, rfl⟩
    · exact rows 0xE0
    · exact rows 0xEE
    · refine iff_of_false (fun h => nonzero d hd ((Digits.row_matches d _ _ _).1 h).1) fun h => ?_
      have h1 := (packXI_inj (a' := 0xF) (b' := 0xF) (c' := 0xFF) (congrArg Prod.fst h)).2.1
      exact absurd h1 (by decide)

/-! ## The lemmas, one per instruction -/

theorem EncodingFits.cls : EncodingFits.Statement (.cls) :=
  fits_whole (.inl rfl)

theorem EncodingFits.ret : EncodingFits.Statement (.ret) :=
  fits_whole (.inr rfl)

theorem EncodingFits.jp (nnn : Addr12) : EncodingFits.Statement (.jp nnn) :=
  fits (d := (0x1, 0x00, 0x00)) rfl (packA_eq_packXI _ _) (by decide) (by decide) (by simp [opcodeDigits])

theorem EncodingFits.call (nnn : Addr12) : EncodingFits.Statement (.call nnn) :=
  fits (d := (0x2, 0x00, 0x00)) rfl (packA_eq_packXI _ _) (by decide) (by decide) (by simp [opcodeDigits])

theorem EncodingFits.seImm (x : Nibble) (nn : Byte) : EncodingFits.Statement (.seImm x nn) :=
  fits (d := (0x3, 0x00, 0x00)) rfl (rfl) (by decide) (by decide) (by simp [opcodeDigits])

theorem EncodingFits.sneImm (x : Nibble) (nn : Byte) : EncodingFits.Statement (.sneImm x nn) :=
  fits (d := (0x4, 0x00, 0x00)) rfl (rfl) (by decide) (by decide) (by simp [opcodeDigits])

theorem EncodingFits.seReg (x : Nibble) (y : Nibble) : EncodingFits.Statement (.seReg x y) :=
  fits (d := (0x5, 0x0F, 0x00)) rfl (packXYN_eq_packXI _ _ _ _) (by decide) (by decide) (by simp [opcodeDigits, low_nibble])

theorem EncodingFits.sneReg (x : Nibble) (y : Nibble) : EncodingFits.Statement (.sneReg x y) :=
  fits (d := (0x9, 0x0F, 0x00)) rfl (packXYN_eq_packXI _ _ _ _) (by decide) (by decide) (by simp [opcodeDigits, low_nibble])

theorem EncodingFits.ldImm (x : Nibble) (nn : Byte) : EncodingFits.Statement (.ldImm x nn) :=
  fits (d := (0x6, 0x00, 0x00)) rfl (rfl) (by decide) (by decide) (by simp [opcodeDigits])

theorem EncodingFits.addImm (x : Nibble) (nn : Byte) : EncodingFits.Statement (.addImm x nn) :=
  fits (d := (0x7, 0x00, 0x00)) rfl (rfl) (by decide) (by decide) (by simp [opcodeDigits])

theorem EncodingFits.ldReg (x : Nibble) (y : Nibble) : EncodingFits.Statement (.ldReg x y) :=
  fits (d := (0x8, 0x0F, 0x00)) rfl (packXYN_eq_packXI _ _ _ _) (by decide) (by decide) (by simp [opcodeDigits, low_nibble])

theorem EncodingFits.orReg (x : Nibble) (y : Nibble) : EncodingFits.Statement (.orReg x y) :=
  fits (d := (0x8, 0x0F, 0x01)) rfl (packXYN_eq_packXI _ _ _ _) (by decide) (by decide) (by simp [opcodeDigits, low_nibble])

theorem EncodingFits.andReg (x : Nibble) (y : Nibble) : EncodingFits.Statement (.andReg x y) :=
  fits (d := (0x8, 0x0F, 0x02)) rfl (packXYN_eq_packXI _ _ _ _) (by decide) (by decide) (by simp [opcodeDigits, low_nibble])

theorem EncodingFits.xorReg (x : Nibble) (y : Nibble) : EncodingFits.Statement (.xorReg x y) :=
  fits (d := (0x8, 0x0F, 0x03)) rfl (packXYN_eq_packXI _ _ _ _) (by decide) (by decide) (by simp [opcodeDigits, low_nibble])

theorem EncodingFits.addReg (x : Nibble) (y : Nibble) : EncodingFits.Statement (.addReg x y) :=
  fits (d := (0x8, 0x0F, 0x04)) rfl (packXYN_eq_packXI _ _ _ _) (by decide) (by decide) (by simp [opcodeDigits, low_nibble])

theorem EncodingFits.subReg (x : Nibble) (y : Nibble) : EncodingFits.Statement (.subReg x y) :=
  fits (d := (0x8, 0x0F, 0x05)) rfl (packXYN_eq_packXI _ _ _ _) (by decide) (by decide) (by simp [opcodeDigits, low_nibble])

theorem EncodingFits.subnReg (x : Nibble) (y : Nibble) : EncodingFits.Statement (.subnReg x y) :=
  fits (d := (0x8, 0x0F, 0x07)) rfl (packXYN_eq_packXI _ _ _ _) (by decide) (by decide) (by simp [opcodeDigits, low_nibble])

theorem EncodingFits.shr (x : Nibble) (y : Nibble) : EncodingFits.Statement (.shr x y) :=
  fits (d := (0x8, 0x0F, 0x06)) rfl (packXYN_eq_packXI _ _ _ _) (by decide) (by decide) (by simp [opcodeDigits, low_nibble])

theorem EncodingFits.shl (x : Nibble) (y : Nibble) : EncodingFits.Statement (.shl x y) :=
  fits (d := (0x8, 0x0F, 0x0E)) rfl (packXYN_eq_packXI _ _ _ _) (by decide) (by decide) (by simp [opcodeDigits, low_nibble])

theorem EncodingFits.ldI (nnn : Addr12) : EncodingFits.Statement (.ldI nnn) :=
  fits (d := (0xA, 0x00, 0x00)) rfl (packA_eq_packXI _ _) (by decide) (by decide) (by simp [opcodeDigits])

theorem EncodingFits.jpV0 (nnn : Addr12) (x : Nibble) : EncodingFits.Statement (.jpV0 nnn x) :=
  fits (d := (0xB, 0x00, 0x00)) rfl (packA_eq_packXI _ _) (by decide) (by decide) (by simp [opcodeDigits])

theorem EncodingFits.rnd (x : Nibble) (nn : Byte) : EncodingFits.Statement (.rnd x nn) :=
  fits (d := (0xC, 0x00, 0x00)) rfl (rfl) (by decide) (by decide) (by simp [opcodeDigits])

theorem EncodingFits.drw (x : Nibble) (y : Nibble) (n : Nibble) : EncodingFits.Statement (.drw x y n) :=
  fits (d := (0xD, 0x00, 0x00)) rfl (packXYN_eq_packXI _ _ _ _) (by decide) (by decide) (by simp [opcodeDigits])

theorem EncodingFits.skp (x : Nibble) : EncodingFits.Statement (.skp x) :=
  fits (d := (0xE, 0xFF, 0x9E)) rfl (rfl) (by decide) (by decide) (by simp [opcodeDigits])

theorem EncodingFits.sknp (x : Nibble) : EncodingFits.Statement (.sknp x) :=
  fits (d := (0xE, 0xFF, 0xA1)) rfl (rfl) (by decide) (by decide) (by simp [opcodeDigits])

theorem EncodingFits.ldVxDt (x : Nibble) : EncodingFits.Statement (.ldVxDt x) :=
  fits (d := (0xF, 0xFF, 0x07)) rfl (rfl) (by decide) (by decide) (by simp [opcodeDigits])

theorem EncodingFits.ldDtVx (x : Nibble) : EncodingFits.Statement (.ldDtVx x) :=
  fits (d := (0xF, 0xFF, 0x15)) rfl (rfl) (by decide) (by decide) (by simp [opcodeDigits])

theorem EncodingFits.ldStVx (x : Nibble) : EncodingFits.Statement (.ldStVx x) :=
  fits (d := (0xF, 0xFF, 0x18)) rfl (rfl) (by decide) (by decide) (by simp [opcodeDigits])

theorem EncodingFits.addI (x : Nibble) : EncodingFits.Statement (.addI x) :=
  fits (d := (0xF, 0xFF, 0x1E)) rfl (rfl) (by decide) (by decide) (by simp [opcodeDigits])

theorem EncodingFits.ldVxK (x : Nibble) : EncodingFits.Statement (.ldVxK x) :=
  fits (d := (0xF, 0xFF, 0x0A)) rfl (rfl) (by decide) (by decide) (by simp [opcodeDigits])

theorem EncodingFits.ldF (x : Nibble) : EncodingFits.Statement (.ldF x) :=
  fits (d := (0xF, 0xFF, 0x29)) rfl (rfl) (by decide) (by decide) (by simp [opcodeDigits])

theorem EncodingFits.ldB (x : Nibble) : EncodingFits.Statement (.ldB x) :=
  fits (d := (0xF, 0xFF, 0x33)) rfl (rfl) (by decide) (by decide) (by simp [opcodeDigits])

theorem EncodingFits.stRegs (x : Nibble) : EncodingFits.Statement (.stRegs x) :=
  fits (d := (0xF, 0xFF, 0x55)) rfl (rfl) (by decide) (by decide) (by simp [opcodeDigits])

theorem EncodingFits.ldRegs (x : Nibble) : EncodingFits.Statement (.ldRegs x) :=
  fits (d := (0xF, 0xFF, 0x65)) rfl (rfl) (by decide) (by decide) (by simp [opcodeDigits])

end Sys2Proof.Laws
end

