-- ==== Sys2Proof/Tests/Slice0.lean ====
section
/-!
SUPPORT. Tests and witnesses, each a small named theorem. Expected results come from spec/: the decode and single-cycle
vectors V-… of spec/95_test_vectors.md, cited in each comment. A witness shows a state and operands that meet the hypotheses of
the obligation it is named after, one for each of its clauses, at the boundary of its range where it has one.
-/

namespace Sys2Proof.Tests

open Sys2Proof.Machine

/-! ## Helpers -/

/-- The base state of the vectors (spec/95 §0), with one cycle a frame. -/
def base : State :=
  { State.reset with run := .running, cpf := ⟨1, Nat.le_refl 1⟩, shiftSwap := false, complexJump := false }

/-- A state with some general registers set. -/
def regs (vs : List (Nibble × Byte)) (s : State) : State := vs.foldl (fun s p => s.writeV p.1 p.2) s

/-- A state with some bytes of memory set. -/
def bytesAt (a : Nat) (bs : List Byte) (s : State) : State := { s with mem := s.mem.writeBytes a bs }

/-- A state with the pixels at (row, column) on. -/
def lit (ps : List (Nat × Nat)) (s : State) : State := { s with fb := ps.foldl (fun fb p => fb.flip p.1 p.2) s.fb }

/-- The lit pixels among rows `r0` to `r0 + n - 1`. -/
def litRows (r0 n : Nat) (s : State) : List (Nat × Nat) :=
  (List.range n).flatMap fun r =>
    ((List.range 64).filter fun c => s.fb.pixel (r0 + r) c).map fun c => (r0 + r, c)

/-- The next state satisfies the test. -/
def next (r : Result) (p : State → Bool) : Bool :=
  match r with
  | .next t => p t
  | .fault _ => false
  | .refused _ => false

/-- One step with the word `w` placed where the next fetch reads. -/
def run (w : Nat) (s : State) : Result := step (s.withFetchWord 16 w)

/-- The next state of an operation and its result satisfy the test. -/
def after (o : HostOp) (s : State) (p : State → HostResult → Bool) : Bool :=
  match hostOp o s with
  | .next (t, r) => p t r
  | .fault _ => false
  | .refused _ => false

/-! ## Well-formedness: the one check, and a term it refuses -/

theorem test_wellFormed_accepts : (Instr.jpV0 0xFFF 0xF).wellFormed = true := by decide

theorem test_wellFormed_refuses_other_selector : (Instr.jpV0 0xFFF 0x0).wellFormed = false := by decide

/-! ## Decoding: a word written out for every row of R75 (spec/95 §2.6 for the vectors) -/

theorem test_decode_cls : decode 0x00E0 = .ok (.cls) := by decide
theorem test_decode_ret : decode 0x00EE = .ok (.ret) := by decide
theorem test_decode_jp : decode 0x10E0 = .ok (.jp 0x0E0) := by decide
theorem test_decode_call : decode 0x220C = .ok (.call 0x20C) := by decide
theorem test_decode_seImm : decode 0x3F01 = .ok (.seImm 0xF 0x01) := by decide
theorem test_decode_sneImm : decode 0x4311 = .ok (.sneImm 0x3 0x11) := by decide
theorem test_decode_seReg : decode 0x5AB0 = .ok (.seReg 0xA 0xB) := by decide
theorem test_decode_sneReg : decode 0x9120 = .ok (.sneReg 0x1 0x2) := by decide
theorem test_decode_ldImm : decode 0x6FAB = .ok (.ldImm 0xF 0xAB) := by decide
theorem test_decode_addImm : decode 0x7202 = .ok (.addImm 0x2 0x02) := by decide
theorem test_decode_ldReg : decode 0x8010 = .ok (.ldReg 0x0 0x1) := by decide
theorem test_decode_orReg : decode 0x8011 = .ok (.orReg 0x0 0x1) := by decide
theorem test_decode_andReg : decode 0x8012 = .ok (.andReg 0x0 0x1) := by decide
theorem test_decode_xorReg : decode 0x8013 = .ok (.xorReg 0x0 0x1) := by decide
theorem test_decode_addReg : decode 0x8F14 = .ok (.addReg 0xF 0x1) := by decide
theorem test_decode_subReg : decode 0x8015 = .ok (.subReg 0x0 0x1) := by decide
theorem test_decode_subnReg : decode 0x8AB7 = .ok (.subnReg 0xA 0xB) := by decide
theorem test_decode_shr : decode 0x8016 = .ok (.shr 0x0 0x1) := by decide
theorem test_decode_shl : decode 0x8ABE = .ok (.shl 0xA 0xB) := by decide
theorem test_decode_ldI : decode 0xA300 = .ok (.ldI 0x300) := by decide
theorem test_decode_jpV0 : decode 0xBFFF = .ok (.jpV0 0xFFF 0xF) := by decide
theorem test_decode_rnd : decode 0xC30F = .ok (.rnd 0x3 0x0F) := by decide
theorem test_decode_drw : decode 0xD123 = .ok (.drw 0x1 0x2 0x3) := by decide
theorem test_decode_skp : decode 0xE09E = .ok (.skp 0x0) := by decide
theorem test_decode_sknp : decode 0xEFA1 = .ok (.sknp 0xF) := by decide
theorem test_decode_ldVxDt : decode 0xF107 = .ok (.ldVxDt 0x1) := by decide
theorem test_decode_ldDtVx : decode 0xF015 = .ok (.ldDtVx 0x0) := by decide
theorem test_decode_ldStVx : decode 0xF518 = .ok (.ldStVx 0x5) := by decide
theorem test_decode_addI : decode 0xFF1E = .ok (.addI 0xF) := by decide
theorem test_decode_ldVxK : decode 0xF00A = .ok (.ldVxK 0x0) := by decide
theorem test_decode_ldF : decode 0xF229 = .ok (.ldF 0x2) := by decide
theorem test_decode_ldB : decode 0xF033 = .ok (.ldB 0x0) := by decide
theorem test_decode_stRegs : decode 0xF155 = .ok (.stRegs 0x1) := by decide
theorem test_decode_ldRegs : decode 0xF265 = .ok (.ldRegs 0x2) := by decide

/-! Unimplemented words of spec/95 §2.6. -/

theorem test_decode_unimplemented_0 :
    decode 0x00EF = .error (.unimplemented 0x00EF) ∧ decode 0x0000 = .error (.unimplemented 0x0000) ∧
    decode 0x01E0 = .error (.unimplemented 0x01E0) := by decide

theorem test_decode_unimplemented_589 :
    decode 0x5ABF = .error (.unimplemented 0x5ABF) ∧ decode 0x8AB8 = .error (.unimplemented 0x8AB8) ∧
    decode 0x8ABF = .error (.unimplemented 0x8ABF) ∧
    decode 0x9001 = .error (.unimplemented 0x9001) := by decide

theorem test_decode_unimplemented_e :
    decode 0xE09F = .error (.unimplemented 0xE09F) ∧ decode 0xE0A0 = .error (.unimplemented 0xE0A0) ∧
    decode 0xE19D = .error (.unimplemented 0xE19D) := by decide

theorem test_decode_unimplemented_f :
    decode 0xF000 = .error (.unimplemented 0xF000) ∧ decode 0xF075 = .error (.unimplemented 0xF075) ∧
    decode 0xF0FF = .error (.unimplemented 0xF0FF) := by decide

/-- The table's numbering of a word: bit 0 is the least significant, the high byte is stored first (R54, R70). -/
theorem test_decodeTableWord : decodeTableWord 16 0xD123 = some (.drw 0x1 0x2 0x3) := by decide

theorem test_decodeTableWord_refuses : decodeTableWord 16 0x5121 = none := by decide

theorem test_withFetchWord_bytes :
    let s := base.withFetchWord 16 0x1234
    s.mem.read 0x200 = 0x12 ∧ s.mem.read 0x201 = 0x34 ∧ s.pc = 0x0200 := by decide

/-- The placed word runs as the very first instruction after reset. -/
theorem test_first_step_after_reset : next (run 0x6005 State.reset) (fun t => t.readV 0x0 = 0x05 ∧ t.pc = 0x0202) = true := by
  decide

/-! ## One step an instruction (spec/95 §2.1 to §2.5) -/

/-- V-CF-1. -/
theorem test_jp :
    next (run 0x1204 { base with pc := 0x0208 })
      (fun t => t.pc = 0x0204) = true := by decide
/-- V-CF-2, cycle 1. -/
theorem test_jp_to_last_byte :
    next (run 0x1FFF base)
      (fun t => t.pc = 0x0FFF ∧ t.fault = none) = true := by decide
/-- V-CF-3. -/
theorem test_call :
    next (run 0x220C { base with pc := 0x0204 })
      (fun t => t.stack[0] = 0x0206 ∧ t.sp = 1 ∧ t.pc = 0x020C) = true := by decide
/-- V-CF-4. -/
theorem test_call_overflow :
    next (run 0x2200 { base with sp := 16 })
      (fun t => t.pc = 0x0202 ∧ t.sp = 16 ∧ t.fault = some ⟨.stackOverflow, 0x0200, 0⟩ ∧ t.run = .paused) = true := by decide
/-- V-CF-5. -/
theorem test_ret :
    next (run 0x00EE { base with pc := 0x020C, sp := 1, stack := base.stack.set 0 0x0206 })
      (fun t => t.pc = 0x0206 ∧ t.sp = 0) = true := by decide
/-- V-CF-6. -/
theorem test_ret_underflow :
    next (run 0x00EE base)
      (fun t => t.pc = 0x0202 ∧ t.sp = 0 ∧ t.fault = some ⟨.stackUnderflow, 0x0200, 0⟩ ∧ t.run = .paused) = true := by decide
/-- V-CF-7c: VF as an operand. -/
theorem test_seImm_skips :
    next (run 0x3F01 (regs [(0xF, 0x01)] base))
      (fun t => t.pc = 0x0204) = true := by decide
/-- V-CF-7b. -/
theorem test_seImm_goes_on :
    next (run 0x3000 (regs [(0x0, 0x01)] { base with pc := 0x0206 }))
      (fun t => t.pc = 0x0208) = true := by decide
/-- V-CF-8a. -/
theorem test_sneImm_skips :
    next (run 0x4311 (regs [(0x3, 0x10)] { base with pc := 0x0300 }))
      (fun t => t.pc = 0x0304) = true := by decide
/-- V-CF-8b. -/
theorem test_sneImm_goes_on :
    next (run 0x4310 (regs [(0x3, 0x10)] { base with pc := 0x0300 }))
      (fun t => t.pc = 0x0302) = true := by decide
/-- V-CF-9a. -/
theorem test_seReg_skips :
    next (run 0x5120 (regs [(0x1, 0x7F), (0x2, 0x7F)] base))
      (fun t => t.pc = 0x0204) = true := by decide
/-- V-CF-9b. -/
theorem test_seReg_goes_on :
    next (run 0x5120 (regs [(0x1, 0x7F), (0x2, 0x7E)] base))
      (fun t => t.pc = 0x0202) = true := by decide
/-- V-CF-10a. -/
theorem test_sneReg_skips :
    next (run 0x9120 (regs [(0x1, 0x01), (0x2, 0x02)] base))
      (fun t => t.pc = 0x0204) = true := by decide
/-- V-CF-10b. -/
theorem test_sneReg_self :
    next (run 0x9AA0 (regs [(0xA, 0x09)] base))
      (fun t => t.pc = 0x0202) = true := by decide
/-- V-CF-11c, cycle 1: the highest `pc`. -/
theorem test_jpV0 :
    next (run 0xBFFF (regs [(0x0, 0xFF)] base))
      (fun t => t.pc = 0x10FE ∧ t.fault = none) = true := by decide
/-- V-CF-11b. -/
theorem test_jpV0_complex :
    next (run 0xB300 (regs [(0x0, 0x04), (0x3, 0x10)] { base with complexJump := true }))
      (fun t => t.pc = 0x0310) = true := by decide
/-- V-ALU-2. -/
theorem test_ldImm :
    next (run 0x6FAB base)
      (fun t => t.readV 0xF = 0xAB ∧ t.pc = 0x0202) = true := by decide
/-- V-ALU-3: VF not written. -/
theorem test_addImm_wraps :
    next (run 0x70FF (regs [(0x0, 0x05), (0xF, 0x01)] base))
      (fun t => t.readV 0x0 = 0x04 ∧ t.readV 0xF = 0x01) = true := by decide
/-- V-ALU-5. -/
theorem test_ldReg :
    next (run 0x8010 (regs [(0x1, 0x33)] base))
      (fun t => t.readV 0x0 = 0x33 ∧ t.readV 0x1 = 0x33) = true := by decide
/-- V-ALU-6: VF not written. -/
theorem test_orReg :
    next (run 0x8011 (regs [(0x0, 0xF0), (0x1, 0x0F), (0xF, 0x01)] base))
      (fun t => t.readV 0x0 = 0xFF ∧ t.readV 0xF = 0x01) = true := by decide
/-- V-ALU-7: VF not written. -/
theorem test_andReg :
    next (run 0x8012 (regs [(0x0, 0xF3), (0x1, 0x3C), (0xF, 0x01)] base))
      (fun t => t.readV 0x0 = 0x30 ∧ t.readV 0xF = 0x01) = true := by decide
/-- V-ALU-8a: VF not written. -/
theorem test_xorReg :
    next (run 0x8013 (regs [(0x0, 0xFF), (0x1, 0x0F), (0xF, 0x01)] base))
      (fun t => t.readV 0x0 = 0xF0 ∧ t.readV 0xF = 0x01) = true := by decide
/-- V-ALU-10b. -/
theorem test_addReg_carry :
    next (run 0x8014 (regs [(0x0, 0xFF), (0x1, 0xFF)] base))
      (fun t => t.readV 0x0 = 0xFE ∧ t.readV 0xF = 0x01) = true := by decide
/-- V-ALU-14b: the sum is overwritten. -/
theorem test_addReg_into_flag :
    next (run 0x8F14 (regs [(0xF, 0x05), (0x1, 0x03)] base))
      (fun t => t.readV 0xF = 0x00) = true := by decide
/-- V-ALU-11b. -/
theorem test_subReg_borrow :
    next (run 0x8015 (regs [(0x0, 0x03), (0x1, 0x05), (0xF, 0x01)] base))
      (fun t => t.readV 0x0 = 0xFE ∧ t.readV 0xF = 0x00) = true := by decide
/-- V-ALU-12. -/
theorem test_subReg_equal :
    next (run 0x8015 (regs [(0x0, 0x07), (0x1, 0x07)] base))
      (fun t => t.readV 0x0 = 0x00 ∧ t.readV 0xF = 0x01) = true := by decide
/-- V-ALU-13b: V[0] not written. -/
theorem test_subnReg_keeps :
    next (run 0x8017 (regs [(0x0, 0x05), (0x1, 0x03)] base))
      (fun t => t.readV 0x0 = 0x05 ∧ t.readV 0xF = 0x01) = true := by decide
/-- V-ALU-13a. -/
theorem test_subnReg_writes :
    next (run 0x8017 (regs [(0x0, 0x03), (0x1, 0x05), (0xF, 0x01)] base))
      (fun t => t.readV 0x0 = 0x02 ∧ t.readV 0xF = 0x00) = true := by decide
/-- V-ALU-19a. -/
theorem test_shr :
    next (run 0x8016 (regs [(0x0, 0x05), (0x1, 0xAA)] base))
      (fun t => t.readV 0x0 = 0x02 ∧ t.readV 0xF = 0x01 ∧ t.readV 0x1 = 0xAA) = true := by decide
/-- V-ALU-19c. -/
theorem test_shr_swap :
    next (run 0x8016 (regs [(0x0, 0xFF), (0x1, 0x04)] { base with shiftSwap := true }))
      (fun t => t.readV 0x0 = 0x02 ∧ t.readV 0xF = 0x00 ∧ t.readV 0x1 = 0x04) = true := by decide
/-- V-ALU-20a. -/
theorem test_shl :
    next (run 0x801E (regs [(0x0, 0x81)] base))
      (fun t => t.readV 0x0 = 0x02 ∧ t.readV 0xF = 0x01) = true := by decide
/-- V-ALU-20c. -/
theorem test_shl_swap :
    next (run 0x801E (regs [(0x1, 0xC0)] { base with shiftSwap := true }))
      (fun t => t.readV 0x0 = 0x80 ∧ t.readV 0xF = 0x01 ∧ t.readV 0x1 = 0xC0) = true := by decide
/-- V-MEM-1. -/
theorem test_ldI :
    next (run 0xA300 base)
      (fun t => t.I = 0x0300 ∧ t.pc = 0x0202) = true := by decide
/-- V-MEM-3: 0x1000 does not exceed 0x1000. -/
theorem test_addI_at_0x1000 :
    next (run 0xF01E (regs [(0x0, 0x01)] { base with I := 0x0FFF }))
      (fun t => t.I = 0x1000 ∧ t.readV 0xF = 0x00) = true := by decide
/-- V-MEM-7: x = 15. -/
theorem test_addI_above :
    next (run 0xFF1E (regs [(0xF, 0x02)] { base with I := 0x0FFF }))
      (fun t => t.I = 0x1001 ∧ t.readV 0xF = 0x01) = true := by decide
/-- V-MEM-8b. -/
theorem test_ldF :
    next (run 0xF229 (regs [(0x2, 0xAB)] base))
      (fun t => t.I = 0x0087) = true := by decide
/-- V-MEM-9d. -/
theorem test_ldB_last_bytes :
    next (run 0xF033 (regs [(0x0, 0xEA)] { base with I := 0x0FFD }))
      (fun t => t.mem.read 0xFFD = 0x02 ∧ t.mem.read 0xFFE = 0x03 ∧ t.mem.read 0xFFF = 0x04 ∧ t.fault = none) = true := by decide
/-- V-MEM-9e. -/
theorem test_ldB_fault_writes_nothing :
    next (run 0xF033 (bytesAt 0xFFE [0xAA, 0xBB] (regs [(0x0, 0xEA)] { base with I := 0x0FFE })))
      (fun t => t.mem.read 0xFFE = 0xAA ∧ t.mem.read 0xFFF = 0xBB ∧ t.pc = 0x0202 ∧ t.fault = some ⟨.addressOutOfRange, 0x0200, 0x1000⟩) = true := by decide
/-- V-MEM-10a: V[3] not stored. -/
theorem test_stRegs :
    next (run 0xF255 (regs [(0x0, 0x11), (0x1, 0x22), (0x2, 0x33), (0x3, 0x44)] { base with I := 0x0400 }))
      (fun t => t.mem.read 0x400 = 0x11 ∧ t.mem.read 0x402 = 0x33 ∧ t.mem.read 0x403 = 0x00 ∧ t.I = 0x0400) = true := by decide
/-- V-MEM-10d. -/
theorem test_stRegs_fault :
    next (run 0xF055 (regs [(0x0, 0x11)] { base with I := 0x1001 }))
      (fun t => t.pc = 0x0202 ∧ t.fault = some ⟨.addressOutOfRange, 0x0200, 0x1001⟩ ∧ t.run = .paused) = true := by decide
/-- V-MEM-11a: V[3] not loaded. -/
theorem test_ldRegs :
    next (run 0xF265 (bytesAt 0x300 [0x02, 0x03, 0x04, 0x99] (regs [(0x3, 0x77)] { base with I := 0x0300 })))
      (fun t => t.readV 0x0 = 0x02 ∧ t.readV 0x2 = 0x04 ∧ t.readV 0x3 = 0x77 ∧ t.I = 0x0300) = true := by decide
/-- V-MEM-12b. -/
theorem test_ldRegs_fault_loads_nothing :
    next (run 0xF165 (bytesAt 0xFFF [0x55] (regs [(0x0, 0x77), (0x1, 0x88)] { base with I := 0x0FFF })))
      (fun t => t.readV 0x0 = 0x77 ∧ t.readV 0x1 = 0x88 ∧ t.fault = some ⟨.addressOutOfRange, 0x0200, 0x1000⟩) = true := by decide
/-- V-DSP-1: VF not written. -/
theorem test_cls :
    next (run 0x00E0 (regs [(0xF, 0x01)] (lit [(0, 0), (31, 63)] base)))
      (fun t => t.fb = Framebuffer.blank ∧ t.readV 0xF = 0x01 ∧ t.pc = 0x0202) = true := by decide
/-- V-DSP-3. -/
theorem test_drw_wraps_and_clips :
    next (run 0xD015 (bytesAt 0x50 [0xF0, 0x90, 0x90, 0x90, 0xF0] (regs [(0x0, 0xFE), (0x1, 0x5E)] { base with I := 0x0050 })))
      (fun t => litRows 30 2 t = [(30, 62), (30, 63), (31, 62)] ∧ litRows 0 2 t = [] ∧ t.readV 0xF = 0x00) = true := by decide
/-- V-DSP-6c. -/
theorem test_drw_collides :
    next (run 0xD011 (bytesAt 0x300 [0xC0] (lit [(0, 0)] { base with I := 0x0300 })))
      (fun t => litRows 0 1 t = [(0, 1)] ∧ t.readV 0xF = 0x01) = true := by decide
/-- V-TKR-2b. -/
theorem test_skp_whole_byte :
    next (run 0xE19E (regs [(0x1, 0x17)] { base with key := some 0x7 }))
      (fun t => t.pc = 0x0202) = true := by decide
/-- V-TKR-2a. -/
theorem test_skp_skips :
    next (run 0xE19E (regs [(0x1, 0x07)] { base with key := some 0x7 }))
      (fun t => t.pc = 0x0204) = true := by decide
/-- V-TKR-3a. -/
theorem test_sknp_no_key :
    next (run 0xE1A1 (regs [(0x1, 0x07)] base))
      (fun t => t.pc = 0x0204) = true := by decide
/-- V-TKR-3b. -/
theorem test_sknp_goes_on :
    next (run 0xE1A1 (regs [(0x1, 0x07)] { base with key := some 0x7 }))
      (fun t => t.pc = 0x0202) = true := by decide
/-- V-TKR-4, inside a frame. -/
theorem test_ldVxDt :
    next (run 0xF107 { base with dt := 0x3C, cyclesLeft := 1 })
      (fun t => t.readV 0x1 = 0x3C ∧ t.dt = 0x3C) = true := by decide
/-- V-TKR-5. -/
theorem test_ldDtVx :
    next (run 0xF015 (regs [(0x0, 0x03)] base))
      (fun t => t.dt = 0x03 ∧ t.st = 0x00) = true := by decide
/-- V-TKR-6. -/
theorem test_ldStVx :
    next (run 0xF518 (regs [(0x5, 0x10)] base))
      (fun t => t.st = 0x10 ∧ t.dt = 0x00) = true := by decide
/-- V-TKR-7a. -/
theorem test_ldVxK_waits :
    next (run 0xF00A base)
      (fun t => t.pc = 0x0200 ∧ t.readV 0x0 = 0x00) = true := by decide
/-- V-TKR-7c. -/
theorem test_ldVxK_key_0 :
    next (run 0xF00A (regs [(0x0, 0x09)] { base with key := some 0x0 }))
      (fun t => t.readV 0x0 = 0x00 ∧ t.pc = 0x0202) = true := by decide
/-- Cxnn, for whatever byte is drawn (V-TKR-1a to 1d): the draw masked, and one draw more. -/
theorem test_rnd (t : State) (h : exec (.rnd 0x3 0x0F) base = .next t) :
    t.readV 0x3 = Config.rnd 0 &&& 0x0F ∧ t.draws = 1 := by
  cases h
  exact ⟨rfl, rfl⟩

/-! ## The cycle and the frame (spec/95 §2.6, §2.7) -/

/-- V-FD-4: `pc` not advanced. -/
theorem test_fetch_at_last_byte :
    next (step { base with pc := 0x0FFF })
      (fun t => t.pc = 0x0FFF ∧ t.fault = some ⟨.addressOutOfRange, 0x0FFF, 0x1000⟩ ∧ t.run = .paused) = true := by decide
/-- V-FD-6. -/
theorem test_fetch_at_0x10FE :
    next (step { base with pc := 0x10FE })
      (fun t => t.pc = 0x10FE ∧ t.fault = some ⟨.addressOutOfRange, 0x10FE, 0x10FE⟩) = true := by decide
/-- V-FD-7, cycle 2. -/
theorem test_fetch_at_odd_pc :
    next (step (bytesAt 0x203 [0x6A, 0x55] { base with pc := 0x0203 }))
      (fun t => t.readV 0xA = 0x55 ∧ t.pc = 0x0205) = true := by decide
/-- V-FD-3: not a clear. -/
theorem test_unimplemented_is_reported :
    next (step (bytesAt 0x200 [0x01, 0xE0] (lit [(0, 0)] base)))
      (fun t => t.pc = 0x0202 ∧ t.reports = [⟨0x0200, 0x01E0⟩] ∧ t.fb.pixel 0 0 = true ∧ t.fault = none) = true := by decide
/-- V-FR-3, frame 1. -/
theorem test_timers_before_the_cycle :
    next (run 0x1200 { base with dt := 0x01, st := 0x05 })
      (fun t => t.dt = 0x00 ∧ t.st = 0x04 ∧ t.pc = 0x0200) = true := by decide
/-- V-FR-3, frame 2. -/
theorem test_timers_floor :
    next (run 0x1200 { base with dt := 0x00, st := 0x04 })
      (fun t => t.dt = 0x00 ∧ t.st = 0x03) = true := by decide
/-- V-FR-6: one decrement a frame. -/
theorem test_no_timer_inside_a_frame :
    next (run 0xF00A { base with dt := 0x08, cyclesLeft := 3 })
      (fun t => t.dt = 0x08 ∧ t.cyclesLeft = 2) = true := by decide
/-- V-FR-4: the frame is over. -/
theorem test_fault_ends_frame :
    next (run 0x00EE { base with dt := 0x05, cpf := ⟨3, by decide⟩ })
      (fun t => t.dt = 0x04 ∧ t.cyclesLeft = 0 ∧ t.fault = some ⟨.stackUnderflow, 0x0200, 0⟩) = true := by decide
/-- V-FR-2. -/
theorem test_paused_changes_nothing :
    next (step { base with run := .paused, dt := 0x03, st := 0x02 })
      (fun t => t.dt = 0x03 ∧ t.st = 0x02 ∧ t.pc = 0x0200) = true := by decide
/-- V-FR-7, first cycle. -/
theorem test_noRom_runs :
    next (step { base with run := .noRom })
      (fun t => t.pc = 0x0202 ∧ t.run = .noRom ∧ t.reports = [⟨0x0200, 0x0000⟩]) = true := by decide

/-- V-FR-5: the whole frame, its reports in order. -/
theorem test_frame_reports :
    next (stepFrame (bytesAt 0x200 [0x00, 0x00, 0x51, 0x21, 0x60, 0x01, 0x80, 0x18] { base with cpf := ⟨4, by decide⟩ }))
      (fun t => t.readV 0x0 = 0x01 ∧ t.pc = 0x0208 ∧
        t.reports = [⟨0x0200, 0x0000⟩, ⟨0x0202, 0x5121⟩, ⟨0x0206, 0x8018⟩]) = true := by decide

/-! ## Host operations (spec/95 §2.8) -/

/-- V-HOST-2. -/
theorem test_load :
    after (.load [0x60, 0x05]) State.reset
      (fun t r => r = .ok ∧ t.mem.read 0x200 = 0x60 ∧ t.mem.read 0x201 = 0x05 ∧ t.run = .running ∧ t.pc = 0x0200) = true := by
  decide

/-- V-HOST-3: one byte too many. -/
theorem test_load_too_large (bytes : List Byte) (h : bytes.length = 3585) :
    hostOp (.load bytes) State.reset = .next (State.reset, .programTooLarge) := by
  simp [hostOp, hostOpNow, State.load, State.reset, h]

/-- V-HOST-6. -/
theorem test_resume : after .resume { base with run := .paused } (fun t r => r = .ok ∧ t.run = .running) = true := by decide

theorem test_pause : after .pause State.reset (fun t r => r = .done ∧ t.run = .paused) = true := by decide

/-- V-HOST-8. -/
theorem test_setCpf_zero : after (.setCpf 0) { base with cpf := ⟨10, by decide⟩ } (fun t r => r = .refused ∧ t.cpf.val = 10) = true := by
  decide

theorem test_setCpf_one : after (.setCpf 1) { base with cpf := ⟨10, by decide⟩ } (fun t r => r = .ok ∧ t.cpf.val = 1) = true := by
  decide

/-- V-HOST-9. -/
theorem test_keys : after (.keySet 0xA) { base with key := some 0x3 } (fun t _ => t.key = some 0xA) = true := by decide

theorem test_keyClear : after .keyClear { base with key := some 0xA } (fun t _ => t.key = none) = true := by decide

/-- V-HOST-7: `reset` leaves Halted, and memory is cleared. -/
theorem test_reset_clears_the_latch :
    after .reset (bytesAt 0x200 [0x00, 0xEE] { base with run := .paused, fault := some ⟨.stackUnderflow, 0x0200, 0⟩ })
      (fun t _ => t.fault = none ∧ t.run = .noRom ∧ t.mem = [] ∧ t.pc = 0x0200) = true := by decide

/-- V-HOST-12, for every table: its first and last byte land at 0x050 and 0x09F. -/
theorem test_loadGlyphs (g : Vector Byte 80) :
    (base.loadGlyphs g).1.mem.read 0x050 = g[0] ∧ (base.loadGlyphs g).1.mem.read 0x09F = g[79] := by
  simp [State.loadGlyphs, Memory.read_writeBytes, Config.glyphBase]

/-- The value a port answers; none where it refuses. -/
def port (p : Port) (s : State) : Option PortValue :=
  match readPort p s with
  | .next v => some v
  | .fault _ => none
  | .refused _ => none

/-- A port answers between frames (R179). -/
theorem test_ports :
    port (.memory 0xFFF) (bytesAt 0xFFF [0x7A] base) = some (.byte 0x7A) ∧ port .pc base = some (.word 0x0200) := by
  decide

/-- A pixel lit inside a frame is not visible before its end (R232; log entry 9). -/
theorem test_no_port_inside_a_frame : port (.pixel 0 0) (lit [(0, 0)] { base with cyclesLeft := 1 }) = none := by
  decide

/-! ## Memory -/

theorem test_reset_memory_wf : State.reset.mem.wf = true := by decide

/-- Writing the byte an unlisted address reads as removes the entry, so equal memories are equal lists. -/
theorem test_memory_canonical :
    Memory.write (Memory.writeBytes [] 0x300 [0x11, 0x22]) 0x300 0x00 = Memory.write [] 0x301 0x22 := by decide

/-! ## Witnesses: each meets the hypotheses of the obligation in its name -/

/-- A word of no row, from one evaluation over the rows. -/
theorem matches_none {w : Word} (h : opcodeRows.all (fun r => !rowMatches r w) = true) :
    ∀ row ∈ opcodeRows, rowMatches row w = false := fun row hr => by
  simpa using List.all_eq_true.1 h row hr

theorem witness_DecodeOfEncode : (Instr.jpV0 0xFFF 0xF).wellFormed = true ∧ (Instr.cls).wellFormed = true := by decide

theorem witness_EncodeOfDecode : decode 0xBFFF = .ok (.jpV0 0xFFF 0xF) := by decide

/-- A word that decodes, a row that matches, two rows equal because one word matches both, and a word of no row. -/
theorem witness_DecodeFollowsOpcodeMap :
    decode 0xFFFF = .error (.unimplemented 0xFFFF) ∧ decode 0xFF65 = .ok (.ldRegs 0xF) ∧
      ((0xF0FF, 0xF065) ∈ opcodeRows ∧ rowMatches (0xF0FF, 0xF065) 0xFF65 = true) ∧
      (∀ row ∈ opcodeRows, rowMatches row 0x8AB8 = false) := by
  refine ⟨by decide, by decide, ⟨by decide, by decide⟩, matches_none (by decide)⟩

theorem witness_UnimplementedWordsAreTheTable : UnimplementedWord 0x8AB8 ∧ ¬ UnimplementedWord 0x8AB7 := by
  refine ⟨.inr (.inr (.inl ⟨by decide, by decide⟩)), ?_⟩
  rintro (⟨h, -⟩ | ⟨h, -⟩ | ⟨-, h⟩ | ⟨h, -⟩ | ⟨h, -⟩ | ⟨h, -⟩) <;> revert h <;> decide

/-- The last address a fetch can reach. -/
theorem witness_StepRunsDecodedInstruction :
    let s := bytesAt 0xFFE [0x60, 0x12] { base with pc := 0x0FFE }
    s.stopped = false ∧ s.pc.toNat ≤ 4094 ∧
      decode (s.mem.read s.pc.toNat ++ s.mem.read (s.pc.toNat + 1)) = .ok (.ldImm 0x0 0x12) := by decide

theorem witness_UnimplementedIsReportedAndSkipped :
    let s := { base with pc := 0x0FFE }
    s.pc.toNat ≤ 4094 ∧ (0x0000 : Word) = s.mem.read s.pc.toNat ++ s.mem.read (s.pc.toNat + 1) ∧
      (∀ row ∈ opcodeRows, rowMatches row 0x0000 = false) ∧ s.fault = none := by
  refine ⟨by decide, by decide, matches_none (by decide), by decide⟩

/-- Each clause at its bound: `pc` 4094, 0x0FFF, 0x1000; the fault of the middle one is that of no other. -/
theorem witness_FetchReadsOrFaults :
    ({ base with pc := 0x0FFE } : State).pc.toNat ≤ 4094 ∧ ({ base with pc := 0x0FFF } : State).pc = 0x0FFF ∧
      ¬ 0x1000 ≤ (0x0FFF : Word).toNat ∧ 0x1000 ≤ ({ base with pc := 0x1000 } : State).pc.toNat := by decide

theorem witness_StoppedMachineIsUnchanged :
    ({ base with run := .paused } : State).run = .paused ∧
      ({ base with fault := some ⟨.stackUnderflow, 0x0200, 0⟩ } : State).fault ≠ none := by decide

/-- A frame of two cycles without a fault, and one that faults in its first of three. -/
theorem witness_FrameIsItsCycles :
    let s := { base with cpf := ⟨2, by decide⟩ }
    let u := bytesAt 0x200 [0x00, 0xEE] { base with cpf := ⟨3, by decide⟩ }
    s.cyclesLeft = 0 ∧ s.stopped = false ∧ next (stepFrame s) (fun t => t.fault = none ∧ t.pc = 0x0204) = true ∧
      u.cyclesLeft = 0 ∧ u.stopped = false ∧ next (stepFrame u) (fun t => t.fault ≠ none ∧ t.dt = 0) = true := by decide

/-- Stopped and not, and an unimplemented word. -/
theorem witness_FrameRunsCyclesInOrder :
    let p := { base with run := .paused }
    base.cyclesLeft = 0 ∧ base.stopped = false ∧ p.cyclesLeft = 0 ∧ p.stopped = true ∧ base.fetchedWord = 0x0000 ∧
      (bytesAt 0x200 [0x60, 0x05] base).fetchedWord = 0x6005 := by decide

/-- A step between frames, and one inside a frame. -/
theorem witness_TimersMoveOncePerFrame :
    let s := { base with dt := 0x01, st := 0x00 }
    let u := { base with dt := 0x01, cyclesLeft := 1 }
    next (step s) (fun t => t.dt = 0x00 ∧ t.st = 0x00) = true ∧ next (step u) (fun t => t.dt = 0x01) = true ∧
      decode s.fetchedWord = .error (.unimplemented 0x0000) ∧ s.stopped = false ∧ s.cyclesLeft = 0 := by decide

/-- A jump to itself, and a key wait with no key. -/
theorem witness_WaitingFrameChangesOnlyTimers :
    let s := bytesAt 0x200 [0x12, 0x00] base
    let u := bytesAt 0x200 [0xF0, 0x0A] base
    s.stopped = false ∧ s.pc.toNat ≤ 4094 ∧ (0x200 : Addr12).toNat = s.pc.toNat ∧
      decode s.fetchedWord = .ok (.jp 0x200) ∧
      u.stopped = false ∧ u.pc.toNat ≤ 4094 ∧ u.key = none ∧ decode u.fetchedWord = .ok (.ldVxK 0x0) := by decide

theorem witness_PlacedWordIsRun : decodeTableWord 16 0xFF65 = some (.ldRegs 0xF) := by decide

/-- Every cause of R191 and an untroubled cycle: the fault each state is expected to raise, at the bounds. -/
theorem witness_FaultCauses :
    ({ base with pc := 0x0FFF } : State).expectedFault = some (.addressOutOfRange, 0x1000) ∧
      (base.withFetchWord 16 0x00EE).expectedFault = some (.stackUnderflow, 0) ∧
      (({ base with sp := 16 } : State).withFetchWord 16 0x2200).expectedFault = some (.stackOverflow, 0) ∧
      (({ base with sp := 15 } : State).withFetchWord 16 0x2200).expectedFault = none ∧
      (({ base with I := 0x0FFE } : State).withFetchWord 16 0xF033).expectedFault = some (.addressOutOfRange, 0x1000) ∧
      (({ base with I := 0x0FFD } : State).withFetchWord 16 0xF033).expectedFault = none := by decide

/-- The bounds of Fx55, Fx65 and Dxyn. -/
theorem witness_FaultCauses_ranges :
    let f := { base with I := 0x0FF0 }
    let g := { base with I := 0x0FF1 }
    (f.withFetchWord 16 0xFF55).expectedFault = none ∧ (f.withFetchWord 16 0xFF65).expectedFault = none ∧
      (g.withFetchWord 16 0xFF55).expectedFault = some (.addressOutOfRange, 0x1000) ∧
      (g.withFetchWord 16 0xFF65).expectedFault = some (.addressOutOfRange, 0x1000) ∧
      (g.withFetchWord 16 0xD01F).expectedFault = none ∧
      (({ base with I := 0x0FF2 } : State).withFetchWord 16 0xD01F).expectedFault = some (.addressOutOfRange, 0x1000) := by
  decide

theorem witness_FaultCauses_cycle :
    base.fault = none ∧ next (cycle (base.withFetchWord 16 0x00EE)) (fun t => t.fault ≠ none) = true ∧
      next (cycle (({ base with I := 0x0FFF } : State).withFetchWord 16 0xF155)) (fun t => t.fault ≠ none) = true := by decide

/-- A fetch fault and an execute fault. -/
theorem witness_FaultsArePrecise :
    let s := { base with pc := 0x1000 }
    let u := ({ base with run := .noRom } : State).withFetchWord 16 0x00EE
    s.fault = none ∧ next (cycle s) (fun t => t.fault = some ⟨.addressOutOfRange, 0x1000, 0x1000⟩) = true ∧
      u.fault = none ∧ next (cycle u) (fun t => t.fault = some ⟨.stackUnderflow, 0x0200, 0⟩ ∧ t.run = .paused) = true := by
  decide

theorem witness_HaltedUntilReset :
    let s := { base with run := .paused, fault := some ⟨.stackUnderflow, 0x0200, 0⟩ }
    s.fault = some ⟨.stackUnderflow, 0x0200, 0⟩ ∧ s.run = .paused ∧ s.cyclesLeft = 0 ∧ HostOp.pause ≠ .reset := by decide

/-- One entry, all sixteen, none. -/
theorem witness_RetPopsOrFaults :
    ({ base with sp := 1 } : State).sp.val = (0 : Fin Config.stackDepth).val + 1 ∧
      ({ base with sp := 16 } : State).sp.val = (15 : Fin Config.stackDepth).val + 1 ∧ base.sp.val = 0 := by decide

/-- Empty, one place left, full. -/
theorem witness_CallPushesOrFaults :
    base.sp.val = (0 : Fin Config.stackDepth).val ∧
      ({ base with sp := 15 } : State).sp.val = (15 : Fin Config.stackDepth).val ∧
      ({ base with sp := 16 } : State).sp.val = 16 := by decide

/-- A state whose stack is the one the call left: that very state. -/
theorem witness_ReturnUndoesCall :
    let s := { base with sp := 15, stack := base.stack.set 3 0x0222 }
    s.sp.val < 16 ∧
      next (exec (.call 0x300) s) (fun t => next (exec .ret t) fun u => u.pc = s.pc ∧ u.stack[3] = 0x0222) = true := by decide

theorem witness_SkipsOnRegisters : (0xF : Nibble) ≠ 0 ∧ (0x1 : Nibble) ≠ 0 := by decide

/-- `x` is not 15: the clause on V[x] applies; and the carry is on the bound of 256. -/
theorem witness_AddSetsCarry :
    (0xE : Nibble) ≠ 0xF ∧ (regs [(0xE, 0xFF), (0x1, 0x01)] base).readV 0xE = 0xFF := by decide

theorem witness_SubClearsFlagOnBorrow : (0x0 : Nibble) ≠ 0xF := by decide

/-- Above and equal. -/
theorem witness_SubnKeepsOnUnderflow :
    let s := regs [(0x0, 0x08), (0x1, 0x07), (0x2, 0x07)] base
    (s.readV 0x0).toNat > (s.readV 0x1).toNat ∧ (s.readV 0x2).toNat ≤ (s.readV 0x1).toNat ∧ (0x0 : Nibble) ≠ 0xF := by decide

/-- Both settings of shift-swap. -/
theorem witness_ShiftsPutLostBitInFlag :
    let s := regs [(0x0, 0x81), (0x1, 0x42)] base
    (0x81 : Byte) = (if s.shiftSwap then s.readV 0x1 else s.readV 0x0) ∧
      (0x42 : Byte) = (if ({ s with shiftSwap := true } : State).shiftSwap then s.readV 0x1 else s.readV 0x0) := by decide

/-- The last address that fits, and the first that does not. -/
theorem witness_StoreDecimalDigits :
    ({ base with I := 0x0FFD } : State).I.toNat + 2 ≤ 4095 ∧ ({ base with I := 0x0FFE } : State).I.toNat + 2 > 4095 := by decide

theorem witness_StoreRegisters :
    ({ base with I := 0x0FF0 } : State).I.toNat + (0xF : Nibble).toNat ≤ 4095 ∧
      ({ base with I := 0x0FF1 } : State).I.toNat + (0xF : Nibble).toNat > 4095 ∧
      ({ base with I := 0xFFFF } : State).I.toNat + (0x0 : Nibble).toNat > 4095 := by decide

theorem witness_LoadRegisters :
    ({ base with I := 0x0FFF } : State).I.toNat + (0x0 : Nibble).toNat ≤ 4095 ∧
      ({ base with I := 0x0FFF } : State).I.toNat + (0x1 : Nibble).toNat > 4095 ∧ (0x0 : Nibble).toNat < (0x1 : Nibble).toNat := by
  decide

theorem witness_StoreIsSeenByNextFetch :
    let s := { base with pc := 0x0FFE, I := 0x0FFE }
    1 ≤ (0x1 : Nibble).toNat ∧ s.I = s.pc ∧ s.I.toNat + (0x1 : Nibble).toNat ≤ 4095 := by decide

/-- No row with `I` outside memory, a last row at 4095, a second row at 4096; a collision and none. -/
theorem witness_DrawXorsAndDetectsCollision :
    let s := bytesAt 0xFFF [0x80] (regs [(0x1, 0x1E)] { base with I := 0x0FFF })
    ({ base with I := 0x1000 } : State).spriteRowCount 0x0 0x0 = 0 ∧
      s.I.toNat + s.spriteRowCount 0x1 0x1 - 1 ≤ 4095 ∧
      (0 < s.spriteRowCount 0x1 0xF ∧ s.I.toNat + s.spriteRowCount 0x1 0xF - 1 > 4095) ∧
      s.spritePixel 0x0 0x1 0x1 30 0 = true ∧ s.fb.pixel 30 0 = false ∧
      (lit [(30, 0)] s).spritePixel 0x0 0x1 0x1 30 0 = true ∧ (lit [(30, 0)] s).fb.pixel 30 0 = true := by decide

/-- No pixel is on before, so the clause of no collision applies. -/
theorem witness_DrawXorsAndDetectsCollision_none :
    ∀ r c, base.spritePixel 0x0 0x1 0x1 r c = true → base.fb.pixel r c = false := by
  intro r c _
  unfold Framebuffer.pixel
  split
  · simp [base, State.reset, Framebuffer.blank]
  · rfl

theorem witness_DrawTwiceRestores :
    let s := bytesAt 0x300 [0x80] { base with I := 0x0300 }
    (0x0 : Nibble) ≠ 0xF ∧ (0x1 : Nibble) ≠ 0xF ∧ s.fault = none ∧
      next (exec (.drw 0x0 0x1 0x1) s) (fun t => t.fault = none) = true := by decide

/-- The two clauses of both skips: the key held is the register's byte, and no key. -/
theorem witness_KeySkipsAreComplementary :
    let s := regs [(0x1, 0x0F)] { base with key := some 0xF }
    (∃ k, s.key = some k ∧ k.toNat = (s.readV 0x1).toNat) ∧ ∀ k, base.key = some k → k.toNat ≠ (base.readV 0x1).toNat := by
  refine ⟨⟨0xF, rfl, by decide⟩, fun k h => ?_⟩
  cases h

theorem witness_KeyWaitPolls : ({ base with key := some 0xF } : State).key = some 0xF ∧ base.key = none := by decide

/-- An instruction that writes registers and answers a next state. -/
theorem witness_RegistersWrittenAsListed :
    next (exec (.ldRegs 0xE) { base with I := 0x0300 }) (fun t => t.fault = none) = true ∧ 0xF ∉ writtenRegisters (.ldRegs 0xE) := by
  decide

/-- One instruction meets the premise of every clause. -/
theorem witness_StorageHasItsOwnWriters :
    let i := Instr.addReg 0x0 0x1
    next (exec i base) (fun t => t.pc = base.pc) = true ∧ (∀ x, i ≠ .ldB x ∧ i ≠ .stRegs x) ∧
      (∀ x nnn, i ≠ .ldI nnn ∧ i ≠ .addI x ∧ i ≠ .ldF x) ∧ (∀ nnn, i ≠ .call nnn ∧ i ≠ .ret) ∧
      (∀ x, i ≠ .ldDtVx x) ∧ (∀ x, i ≠ .ldStVx x) ∧ (∀ x y n, i ≠ .cls ∧ i ≠ .drw x y n) ∧ ∀ x nn, i ≠ .rnd x nn := by
  refine ⟨by decide, ?_⟩
  simp

/-- An instruction that faults, and one that meets the premise of the second clause. -/
theorem witness_HostStateIsOutOfReach :
    next (exec (.ldRegs 0x0) { base with I := 0x1000 }) (fun t => t.fault ≠ none) = true ∧
      next (exec (.skp 0x0) base) (fun t => t.fault = none) = true ∧
      ∀ nnn x y n, Instr.skp 0x0 ≠ .ret ∧ Instr.skp 0x0 ≠ .call nnn ∧ Instr.skp 0x0 ≠ .drw x y n ∧
        Instr.skp 0x0 ≠ .ldB x ∧ Instr.skp 0x0 ≠ .stRegs x ∧ Instr.skp 0x0 ≠ .ldRegs x := by
  refine ⟨by decide, by decide, ?_⟩
  simp

/-- Halted, one byte too many, exactly full. -/
theorem witness_LoadCopiesProgram :
    ({ base with fault := some ⟨.stackUnderflow, 0x0200, 0⟩ } : State).fault ≠ none ∧ base.fault = none ∧ base.cyclesLeft = 0 ∧
      3584 < (List.replicate 3585 (0xAA : Byte)).length ∧ (List.replicate 3584 (0xAA : Byte)).length ≤ 3584 := by
  refine ⟨by decide, by decide, by decide, by rw [List.length_replicate]; decide, by rw [List.length_replicate]⟩

theorem witness_GlyphTableIsCopied : State.reset.cyclesLeft = 0 := by decide

/-- Every branch: not Halted and Halted, Paused and not, stopped and not. -/
theorem witness_RunStateMachine :
    let p := { base with run := .paused }
    let h := { p with fault := some ⟨.stackUnderflow, 0x0200, 0⟩ }
    base.cyclesLeft = 0 ∧ p.cyclesLeft = 0 ∧ h.cyclesLeft = 0 ∧ base.fault = none ∧ h.fault ≠ none ∧ p.run = .paused ∧
      base.run ≠ .paused ∧ p.stopped = true ∧ base.stopped = false := by decide

theorem witness_PauseAndResume :
    let p := { base with run := .paused }
    p.cyclesLeft = 0 ∧ p.fault = none ∧ p.run = .paused ∧ base.run ≠ .paused ∧
      ({ p with fault := some ⟨.stackOverflow, 0x0200, 0⟩ } : State).fault ≠ none := by decide

theorem witness_KeysAndConfiguration : base.cyclesLeft = 0 ∧ 1 ≤ 1 := by decide

theorem witness_OperationsOnlyBetweenFrames : ({ base with cyclesLeft := 1 } : State).cyclesLeft ≠ 0 := by decide

theorem witness_PortsReadBetweenFrames : (lit [(31, 63)] base).cyclesLeft = 0 := by decide

/-- The last two words of memory, with one sprite row at 4095, and with no row at all. -/
theorem witness_DrawnAndErasedIsNeverVisible :
    let s := bytesAt 0xFFC [0xD0, 0x11, 0xD0, 0x11] { base with pc := 0x0FFC, I := 0x0FFF, cpf := ⟨2, by decide⟩ }
    let u := bytesAt 0xFFC [0xD0, 0x10, 0xD0, 0x10] { base with pc := 0x0FFC, I := 0x1000, cpf := ⟨2, by decide⟩ }
    (s.cyclesLeft = 0 ∧ s.stopped = false ∧ s.cpf.val = 2 ∧ s.pc.toNat ≤ 4092) ∧
      decode s.fetchedWord = .ok (.drw 0x0 0x1 0x1) ∧ s.advance.fetchedWord = s.fetchedWord ∧
      s.I.toNat + s.spriteRowCount 0x1 0x1 - 1 ≤ 4095 ∧
      decode u.fetchedWord = .ok (.drw 0x0 0x1 0x0) ∧ u.advance.fetchedWord = u.fetchedWord ∧
      u.spriteRowCount 0x1 0x0 = 0 ∧ (0x0 : Nibble) ≠ 0xF ∧ (0x1 : Nibble) ≠ 0xF := by decide

theorem witness_ResetRestoresState : (regs [(0x3, 0x44)] { base with sp := 2 }).cyclesLeft = 0 := by decide

/-- A state that is not the reset state, with one call pending. -/
theorem witness_StepKeepsInvariant :
    let s := { base with sp := 1, stack := base.stack.set 0 0x1000, pc := 0x10FE }
    s.Inv ∧ next (step s) (fun t => t.fault ≠ none) = true := by
  refine ⟨⟨by decide, by decide, ?_, ?_, by decide, by decide⟩, by decide⟩
  · intro k hk
    have : k = 0 := Fin.ext (by simpa using hk)
    subst this
    decide
  · intro f hf
    cases hf

theorem witness_HostOperationsKeepInvariant :
    base.Inv ∧ after .loadGlyphs base (fun _ r => r = .done) = true := by
  refine ⟨⟨by decide, by decide, ?_, ?_, by decide, by decide⟩, by decide⟩
  · intro k hk
    exact absurd hk (by simp [base, State.reset])
  · intro f hf
    cases hf

end Sys2Proof.Tests
end

/-!
What each instruction stores to, said once: fault entry with a legal raise, or the fields of its row of the spec's
tables (R24 to R29, R35, R146). The frame of one field is then a case split on the instruction alone.
-/

namespace Sys2Proof.Machine

/-! ## Legal raises -/

/-- What a raise may carry (R191): an address outside [0, 4096) for an address fault, 0 for a stack fault. -/
def Raise.legal (e : Raise) : Prop :=
  (e.cause = .addressOutOfRange → 4096 ≤ e.addr.toNat ∧ e.addr.toNat ≤ 0x1000E) ∧
    (e.cause ≠ .addressOutOfRange → e.addr = 0)

/-- An access based at a 16-bit register raises a legal address fault (R52, R53). -/
theorem Raise.outOfRange_legal (w : Word) : (Raise.outOfRange w.toNat).legal := by
  have hw := w.isLt
  have haddr : (Raise.outOfRange w.toNat).addr.toNat = max w.toNat 4096 := by
    rw [Raise.outOfRange_addr, BitVec.toNat_ofNat, Nat.mod_eq_of_lt (by omega)]
  exact ⟨fun _ => by omega, fun h => absurd (Raise.outOfRange_cause _) h⟩

/-- A stack fault's raise is legal (R101). -/
theorem Raise.legal_of_stack {c : Cause} (h : c ≠ .addressOutOfRange) : Raise.legal ⟨c, 0⟩ :=
  ⟨fun hc => absurd hc h, fun _ => rfl⟩

/-! ## The footprint -/

/-- `s` with the fields that `i` stores to taken from `t`. -/
def footprint (i : Instr) (s t : State) : State :=
  match i with
  | .jp _ | .jpV0 _ _ | .seImm _ _ | .sneImm _ _ | .seReg _ _ | .sneReg _ _ | .skp _ | .sknp _ => { s with pc := t.pc }
  | .ret => { s with pc := t.pc, sp := t.sp }
  | .call _ => { s with pc := t.pc, sp := t.sp, stack := t.stack }
  | .ldImm _ _ | .addImm _ _ | .ldReg _ _ | .orReg _ _ | .andReg _ _ | .xorReg _ _ | .addReg _ _ | .subReg _ _
  | .subnReg _ _ | .shr _ _ | .shl _ _ | .ldVxDt _ | .ldRegs _ => { s with V := t.V }
  | .ldVxK _ => { s with V := t.V, pc := t.pc }
  | .rnd _ _ => { s with V := t.V, draws := t.draws }
  | .cls => { s with fb := t.fb }
  | .drw _ _ _ => { s with fb := t.fb, V := t.V }
  | .ldI _ | .ldF _ => { s with I := t.I }
  | .addI _ => { s with I := t.I, V := t.V }
  | .ldB _ | .stRegs _ => { s with mem := t.mem }
  | .ldDtVx _ => { s with dt := t.dt }
  | .ldStVx _ => { s with st := t.st }

/-- An instruction answers one state. -/
theorem exec_next_unique {i : Instr} {s t u : State} (h : exec i s = .next t) (hu : exec i s = .next u) : t = u :=
  Host.Outcome.next.inj (h.symm.trans hu)

/-- Everything an instruction can do: enter a fault with a legal raise and store nothing (R197), or store within its
footprint. -/
theorem exec_answers (i : Instr) (s : State) :
    ∃ t, exec i s = .next t ∧ ((∃ e : Raise, e.legal ∧ t = s.enterFault s.ia e) ∨ t = footprint i s t) := by
  cases i with
  | ret =>
    rcases exec_ret_cases s with ⟨_, _, he⟩ | ⟨_, he⟩
    · exact ⟨_, he, .inr rfl⟩
    · exact ⟨_, he, .inl ⟨_, Raise.legal_of_stack (by decide), rfl⟩⟩
  | call nnn =>
    rcases exec_call_cases nnn s with ⟨_, he⟩ | ⟨_, he⟩
    · exact ⟨_, he, .inr rfl⟩
    · exact ⟨_, he, .inl ⟨_, Raise.legal_of_stack (by decide), rfl⟩⟩
  | ldB x =>
    rcases exec_ldB_cases x s with ⟨_, he⟩ | ⟨_, he⟩
    · exact ⟨_, he, .inr rfl⟩
    · exact ⟨_, he, .inl ⟨_, Raise.outOfRange_legal s.I, rfl⟩⟩
  | stRegs x =>
    rcases exec_stRegs_cases x s with ⟨_, he⟩ | ⟨_, he⟩
    · exact ⟨_, he, .inr rfl⟩
    · exact ⟨_, he, .inl ⟨_, Raise.outOfRange_legal s.I, rfl⟩⟩
  | ldRegs x =>
    rcases exec_ldRegs_cases x s with ⟨_, he⟩ | ⟨_, he⟩
    · exact ⟨_, he, .inr (State.writeVs_eq _ _ _)⟩
    · exact ⟨_, he, .inl ⟨_, Raise.outOfRange_legal s.I, rfl⟩⟩
  | drw x y n =>
    rcases exec_drw_cases x y n s with ⟨_, he⟩ | ⟨_, _, he⟩
    · exact ⟨_, he, .inr rfl⟩
    · exact ⟨_, he, .inl ⟨_, Raise.outOfRange_legal s.I, rfl⟩⟩
  | ldVxK x =>
    cases hk : s.key with
    | none => exact ⟨_, exec_ldVxK_of_none x s hk, .inr rfl⟩
    | some k => exact ⟨_, exec_ldVxK_of_key x s k hk, .inr rfl⟩
  | subnReg x y => exact ⟨_, rfl, .inr (by split <;> rfl)⟩
  | addI x => exact ⟨_, rfl, .inr (by split <;> rfl)⟩
  | _ => exact ⟨_, rfl, .inr rfl⟩

/-- `exec_answers` of the state that the instruction answers. -/
theorem exec_cases {i : Instr} {s t : State} (h : exec i s = .next t) :
    (∃ e : Raise, e.legal ∧ t = s.enterFault s.ia e) ∨ t = footprint i s t := by
  obtain ⟨u, hu, hcases⟩ := exec_answers i s
  rwa [exec_next_unique h hu]

/-- A field that neither fault entry nor the instruction's footprint touches is as before. -/
theorem exec_keeps {α : Type} (f : State → α) {i : Instr} {s t : State} (h : exec i s = .next t)
    (hfault : ∀ e, f (s.enterFault s.ia e) = f s) (hfoot : ∀ u, f (footprint i s u) = f s) : f t = f s := by
  rcases exec_cases h with ⟨e, -, ht⟩ | ht
  · rw [ht, hfault]
  · rw [ht, hfoot]

/-! ## One lemma a field: the instructions that store to it -/

section
variable {i : Instr} {s t : State} (h : exec i s = .next t)
include h

theorem exec_mem (hi : ∀ x, i ≠ .ldB x ∧ i ≠ .stRegs x) : t.mem = s.mem :=
  exec_keeps State.mem h (fun _ => rfl) fun _ => by
    cases i with
    | ldB x => exact absurd rfl (hi x).1
    | stRegs x => exact absurd rfl (hi x).2
    | _ => rfl

theorem exec_I (hi : ∀ x nnn, i ≠ .ldI nnn ∧ i ≠ .addI x ∧ i ≠ .ldF x) : t.I = s.I :=
  exec_keeps State.I h (fun _ => rfl) fun _ => by
    cases i with
    | ldI nnn => exact absurd rfl (hi 0 nnn).1
    | addI x => exact absurd rfl (hi x 0).2.1
    | ldF x => exact absurd rfl (hi x 0).2.2
    | _ => rfl

theorem exec_stack (hi : ∀ nnn, i ≠ .call nnn ∧ i ≠ .ret) : SameStack s t :=
  Prod.ext_iff.1 <| exec_keeps (fun u => (u.sp, u.stack)) h (fun _ => rfl) fun _ => by
    cases i with
    | call nnn => exact absurd rfl (hi nnn).1
    | ret => exact absurd rfl (hi 0).2
    | _ => rfl

theorem exec_dt (hi : ∀ x, i ≠ .ldDtVx x) : t.dt = s.dt :=
  exec_keeps State.dt h (fun _ => rfl) fun _ => by
    cases i with
    | ldDtVx x => exact absurd rfl (hi x)
    | _ => rfl

theorem exec_st (hi : ∀ x, i ≠ .ldStVx x) : t.st = s.st :=
  exec_keeps State.st h (fun _ => rfl) fun _ => by
    cases i with
    | ldStVx x => exact absurd rfl (hi x)
    | _ => rfl

theorem exec_fb (hi : ∀ x y n, i ≠ .cls ∧ i ≠ .drw x y n) : t.fb = s.fb :=
  exec_keeps State.fb h (fun _ => rfl) fun _ => by
    cases i with
    | cls => exact absurd rfl (hi 0 0 0).1
    | drw x y n => exact absurd rfl (hi x y n).2
    | _ => rfl

theorem exec_draws (hi : ∀ x nn, i ≠ .rnd x nn) : t.draws = s.draws :=
  exec_keeps State.draws h (fun _ => rfl) fun _ => by
    cases i with
    | rnd x nn => exact absurd rfl (hi x nn)
    | _ => rfl

/-- An instruction whose row of R35's table is empty writes no register. -/
theorem exec_V (hi : writtenRegisters i = []) : t.V = s.V :=
  exec_keeps State.V h (fun _ => rfl) fun _ => by
    cases i with
    | cls | ret | jp | call | seImm | sneImm | seReg | sneReg | ldI | jpV0 | skp | sknp | ldDtVx | ldStVx | ldF | ldB
    | stRegs => rfl
    | ldRegs x => simp [writtenRegisters] at hi
    | _ => cases hi

/-- No instruction writes what only the host writes, the place in the frame or the reports (R30, R38, R39, R40). -/
theorem exec_hostState : SameHostState s t := by
  rcases exec_cases h with ⟨e, -, ht⟩ | ht
  · rw [ht]
    exact ⟨rfl, rfl, rfl, rfl, rfl, rfl⟩
  · rw [ht]
    cases i <;> exact ⟨rfl, rfl, rfl, rfl, rfl, rfl⟩

/-- The run state and the latch change by fault entry alone (R31, R32, R191). -/
theorem exec_runState : (∃ e : Raise, e.legal ∧ t = s.enterFault s.ia e) ∨ SameRunState s t := by
  refine (exec_cases h).imp_right fun ht => ?_
  rw [ht]
  cases i <;> exact ⟨rfl, rfl⟩

end

/-- Settles O46: the frame of each field, from the instruction's footprint. -/
theorem storageHasItsOwnWriters : Obligations.StorageHasItsOwnWriters := by
  intro i s t h
  exact ⟨fun hi a => by rw [exec_mem h hi], exec_I h, exec_stack h, exec_dt h, exec_st h,
    fun hi r c => by rw [exec_fb h hi], exec_draws h⟩

end Sys2Proof.Machine

/-!
The registers an instruction leaves alone (R35): an empty row from the footprint, every other row from the writes
its meaning makes.
-/

namespace Sys2Proof.Machine

/-- The row of Fx65 is V[0] to V[x]. -/
theorem mem_writtenRegisters_ldRegs {x r : Nibble} : r ∈ writtenRegisters (.ldRegs x) ↔ r.toNat ≤ x.toNat := by
  simp only [writtenRegisters, List.mem_map, List.mem_range]
  constructor
  · rintro ⟨k, hk, rfl⟩
    have := Nat.mod_le k (2 ^ 4)
    rw [BitVec.toNat_ofNat]
    omega
  · exact fun hr => ⟨r.toNat, by omega, by simp⟩

/-- A block load of the bytes for V[0] to V[x] writes no register above V[x] (R145). -/
theorem sameRegistersBut_writeVs (s : State) (x : Nibble) (bytes : List Byte) (hlen : bytes.length = x.toNat + 1) :
    SameRegistersBut (writtenRegisters (.ldRegs x)) s (s.writeVs 0 bytes) := by
  intro r hr
  have hx := x.isLt
  rw [mem_writtenRegisters_ldRegs] at hr
  rw [State.readV_writeVs _ _ _ (by omega), if_pos (Nat.zero_le _), List.getD_eq_default _ _ (by omega)]

/-- Writing fewer registers is writing no more. -/
theorem SameRegistersBut.mono {xs ys : List Nibble} {s t : State} (h : SameRegistersBut xs s t) (hsub : xs ⊆ ys) :
    SameRegistersBut ys s t :=
  fun r hr => h r fun hx => hr (hsub hx)

/-- Settles O45, by the writes of each instruction's meaning. -/
theorem registersWrittenAsListed : Obligations.RegistersWrittenAsListed := by
  intro i s t h
  cases i with
  | ldImm | addImm | ldReg | orReg | andReg | xorReg | rnd | ldVxDt =>
    obtain rfl := exec_next_unique h rfl
    exact sameRegistersBut_writeV s _ _
  | addReg | subReg | shr | shl =>
    obtain rfl := exec_next_unique h rfl
    exact sameRegistersBut_writeV_setFlag s _ _ _
  | subnReg x y =>
    obtain rfl := exec_next_unique h rfl
    split
    · exact (sameRegistersBut_setFlag s true).mono (List.subset_cons_self _ _)
    · exact sameRegistersBut_writeV_setFlag s _ _ _
  | ldVxK x =>
    cases hk : s.key with
    | none =>
      obtain rfl := exec_next_unique h (exec_ldVxK_of_none x s hk)
      exact sameRegistersBut_of_eq rfl _
    | some k =>
      obtain rfl := exec_next_unique h (exec_ldVxK_of_key x s k hk)
      exact sameRegistersBut_writeV s x _
  | drw x y n =>
    rcases exec_drw_cases x y n s with ⟨_, he⟩ | ⟨_, _, he⟩
    · obtain rfl := exec_next_unique h he
      exact sameRegistersBut_setFlag { s with fb := (s.drawn x y n).1 } _
    · obtain rfl := exec_next_unique h he
      exact sameRegistersBut_of_eq rfl _
  | addI x =>
    obtain rfl := exec_next_unique h rfl
    split
    · exact sameRegistersBut_setFlag { s with I := s.I + (s.readV x).setWidth 16 } true
    · exact sameRegistersBut_of_eq rfl _
  | ldRegs x =>
    rcases exec_ldRegs_cases x s with ⟨_, he⟩ | ⟨_, he⟩
    · obtain rfl := exec_next_unique h he
      exact sameRegistersBut_writeVs s x _ (Memory.readBytes_length _ _ _)
    · obtain rfl := exec_next_unique h he
      exact sameRegistersBut_of_eq rfl _
  | _ => exact sameRegistersBut_of_eq (exec_V h rfl) _

end Sys2Proof.Machine

/-!
The timers (R27, R28, R171): a cycle leaves each but for its own instruction, and a frame's first step decrements it.
-/

namespace Sys2Proof.Machine

/-- A step of a machine that is not stopped is a cycle between `enterCycle` and `leaveCycle` (R171). -/
theorem step_eq_next_of_not_stopped {s t : State} (hs : s.stopped = false) (h : step s = .next t) :
    ∃ u, cycle s.enterCycle = .next u ∧ t = u.leaveCycle := by
  rw [step_of_not_stopped s hs] at h
  cases hc : cycle s.enterCycle with
  | next u =>
    rw [hc, mapNext_next] at h
    exact ⟨u, rfl, (Host.Outcome.next.inj h).symm⟩
  | fault r => cases r
  | refused r =>
    rw [hc] at h
    cases h

/-- A step of a stopped machine answers the machine, idle (R171). -/
theorem step_eq_next_of_stopped {s t : State} (hs : s.stopped = true) (h : step s = .next t) : t = s.idle := by
  rw [step_of_stopped s hs] at h
  exact (Host.Outcome.next.inj h).symm

/-- A field that a fetch fault, the report of an unimplemented word and the fetched instruction leave alone is as
before after a cycle. -/
theorem cycle_keeps {α : Type} (f : State → α) {s t : State} (h : cycle s = .next t)
    (hfault : ∀ r, f (s.enterFault s.pc r) = f s) (hreport : ∀ w, f (s.advance.report s.pc w) = f s)
    (hexec : ∀ i, decode s.fetchedWord = .ok i → exec i s.advance = .next t → f t = f s) : f t = f s := by
  rcases cycle_cases s with ⟨-, hc⟩ | ⟨-, i, hd, hc⟩ | ⟨-, r, -, hc⟩
  · rw [← Host.Outcome.next.inj (hc.symm.trans h), hfault]
  · exact hexec i hd (hc.symm.trans h)
  · rw [← Host.Outcome.next.inj (hc.symm.trans h), hreport]

/-- A cycle that does not run Fx15 leaves the delay timer. -/
theorem cycle_dt {s t : State} (h : cycle s = .next t) (hi : ∀ x, decode s.fetchedWord ≠ .ok (.ldDtVx x)) :
    t.dt = s.dt :=
  cycle_keeps State.dt h (fun _ => rfl) (fun _ => rfl) fun _ hd he =>
    (exec_dt he fun x hx => hi x (hx ▸ hd)).trans s.advance_dt

/-- A cycle that does not run Fx18 leaves the sound timer. -/
theorem cycle_st {s t : State} (h : cycle s = .next t) (hi : ∀ x, decode s.fetchedWord ≠ .ok (.ldStVx x)) :
    t.st = s.st :=
  cycle_keeps State.st h (fun _ => rfl) (fun _ => rfl) fun _ hd he =>
    (exec_st he fun x hx => hi x (hx ▸ hd)).trans s.advance_st

/-- The decrement is the truncated one of the natural numbers (R27, R28). -/
theorem tick_toNat (b : Byte) : (tick b).toNat = b.toNat - 1 := by
  unfold tick
  split
  · next h => rw [h]; rfl
  · next h => bv_omega

/-- Settles O12: a stopped machine keeps its timers, and any other one's are those on entry to its cycle. -/
theorem timersMoveOncePerFrame : Obligations.TimersMoveOncePerFrame := by
  intro s t h
  cases hs : s.stopped with
  | true =>
    obtain rfl := step_eq_next_of_stopped hs h
    simp
  | false =>
    obtain ⟨u, hu, rfl⟩ := step_eq_next_of_not_stopped hs h
    constructor <;> intro hi
    · rw [State.leaveCycle_dt, cycle_dt hu hi, State.enterCycle_dt, apply_ite BitVec.toNat, tick_toNat]
      simp
    · rw [State.leaveCycle_st, cycle_st hu hi, State.enterCycle_st, apply_ite BitVec.toNat, tick_toNat]
      simp

end Sys2Proof.Machine

/-!
The machine's invariant: what an instruction, a cycle and a step each keep of it.
-/

namespace Sys2Proof.Machine

/-- The invariant but for the frame counter: what a cycle keeps wherever in a frame it runs. -/
structure State.CycleInv (s : State) : Prop where
  memory : s.mem.wf = true
  pcBound : s.pc.toNat ≤ 0x10FE
  returns : s.returnsBounded
  latch : s.faultLegal

/-- Entering a cycle touches the timers, the reports and the frame counter alone. -/
theorem State.Inv.enterCycle {s : State} (h : s.Inv) : s.enterCycle.CycleInv :=
  ⟨h.memory, h.pcBound, h.returns, h.latch⟩

/-- Leaving a cycle touches the frame counter alone. -/
theorem State.CycleInv.leaveCycle {s : State} (h : s.CycleInv) (hframe : s.leaveCycle.frameLegal) :
    s.leaveCycle.Inv :=
  ⟨h.memory, h.pcBound, h.returns, h.latch, hframe⟩

/-! ## The clauses, each from the fields it reads -/

theorem State.returnsBounded_congr {s t : State} (hs : s.returnsBounded) (h : SameStack s t) : t.returnsBounded := by
  obtain ⟨hsp, hstack⟩ := h
  intro k hk
  rw [hstack]
  exact hs k (hsp ▸ hk)

/-- No fault is latched, so the latch holds nothing illegal. -/
theorem State.faultLegal_of_none {s : State} (h : s.fault = none) : s.faultLegal := by
  intro f hf
  rw [h] at hf
  cases hf

/-- Fault entry for the instruction at `pc` or just before it leaves a legal latch (R196). -/
theorem State.enterFault_faultLegal (s : State) {ia : Word} {e : Raise} (hia : s.pc = ia ∨ s.pc = ia + 2)
    (he : e.legal) : (s.enterFault ia e).faultLegal := by
  rintro f ⟨⟩
  exact ⟨rfl, hia, he.1, he.2⟩

/-- Fault entry keeps the rest of the invariant. -/
theorem State.CycleInv.enterFault {s : State} (h : s.CycleInv) {ia : Word} {e : Raise}
    (hia : s.pc = ia ∨ s.pc = ia + 2) (he : e.legal) : (s.enterFault ia e).CycleInv :=
  ⟨h.memory, h.pcBound, h.returns, s.enterFault_faultLegal hia he⟩

/-- A machine that is not stopped is not Paused and has no fault (R171). -/
theorem State.stopped_eq_false_iff (s : State) : s.stopped = false ↔ s.run ≠ .paused ∧ s.fault = none := by
  simp [State.stopped]

/-! ## What an instruction keeps -/

/-- Memory stays canonical: only Fx33 and Fx55 write it, both within range (R53). -/
theorem exec_mem_wf {i : Instr} {s t : State} (h : exec i s = .next t) (hs : s.mem.wf = true) : t.mem.wf = true := by
  cases i with
  | ldB x =>
    rcases exec_ldB_cases x s with ⟨hr, he⟩ | ⟨_, he⟩
    · rw [exec_next_unique h he]
      exact Memory.wf_writeBytes hs hr
    · rw [exec_next_unique h he]
      exact hs
  | stRegs x =>
    rcases exec_stRegs_cases x s with ⟨hr, he⟩ | ⟨_, he⟩
    · rw [exec_next_unique h he]
      exact Memory.wf_writeBytes hs (by rwa [State.readVs_length])
    · rw [exec_next_unique h he]
      exact hs
  | _ => rwa [exec_mem h (by simp)]

/-- A call pushes the advanced `pc`, and a return only drops an entry (R101, R102, R104). -/
theorem exec_returnsBounded {i : Instr} {s t : State} (h : exec i s = .next t) (hlo : 2 ≤ s.pc.toNat)
    (hhi : s.pc.toNat ≤ 0x1000) (hs : s.returnsBounded) : t.returnsBounded := by
  cases i with
  | call nnn =>
    rcases exec_call_cases nnn s with ⟨hsp, he⟩ | ⟨_, he⟩
    · rw [exec_next_unique h he]
      intro k hk
      simp only [Fin.getElem_fin, Vector.getElem_set]
      split
      · exact ⟨hlo, hhi⟩
      · next hne => exact hs k (by simp only at hk; omega)
    · rw [exec_next_unique h he]
      exact hs
  | ret =>
    rcases exec_ret_cases s with ⟨_, _, he⟩ | ⟨_, he⟩
    · rw [exec_next_unique h he]
      exact fun k hk => hs k (Nat.lt_of_lt_of_le hk (Nat.sub_le _ _))
    · rw [exec_next_unique h he]
      exact hs
  | _ => exact State.returnsBounded_congr hs (exec_stack h (by simp))

/-- A skip ends at most two words beyond its own address (R100). -/
theorem State.skipIf_pc_le (s : State) (c : Bool) (h : s.pc.toNat ≤ 0x1000) : (s.skipIf c).pc.toNat ≤ 0x10FE := by
  rw [State.skipIf_pc]
  split <;> bv_omega

/-- An instruction fetched within memory leaves `pc` at most 0x10FE, the largest target of Bnnn (R34, R109). -/
theorem exec_pc_le {i : Instr} {s t : State} (h : exec i s = .next t) (hlo : 2 ≤ s.pc.toNat)
    (hhi : s.pc.toNat ≤ 0x1000) (hs : s.returnsBounded) : t.pc.toNat ≤ 0x10FE := by
  cases i with
  | seImm | sneImm | seReg | sneReg | skp | sknp =>
    obtain rfl := exec_next_unique h rfl
    exact s.skipIf_pc_le _ hhi
  | jp nnn =>
    obtain rfl := exec_next_unique h rfl
    have := nnn.isLt
    simp only [BitVec.toNat_setWidth]
    omega
  | jpV0 nnn x =>
    obtain rfl := exec_next_unique h rfl
    have := nnn.isLt
    have := (s.jumpOffset x).isLt
    simp only [BitVec.toNat_add, BitVec.toNat_setWidth]
    omega
  | call nnn =>
    rcases exec_call_cases nnn s with ⟨_, he⟩ | ⟨_, he⟩
    · obtain rfl := exec_next_unique h he
      have := nnn.isLt
      simp only [BitVec.toNat_setWidth]
      omega
    · rw [exec_next_unique h he, State.enterFault_pc]
      omega
  | ret =>
    rcases exec_ret_cases s with ⟨hlt, hsp, he⟩ | ⟨_, he⟩
    · obtain rfl := exec_next_unique h he
      exact (hs ⟨s.sp.val - 1, hlt⟩ (Nat.sub_lt hsp Nat.one_pos)).2.trans (by decide)
    · rw [exec_next_unique h he, State.enterFault_pc]
      omega
  | ldVxK x =>
    cases hk : s.key with
    | none =>
      obtain rfl := exec_next_unique h (exec_ldVxK_of_none x s hk)
      bv_omega
    | some k =>
      obtain rfl := exec_next_unique h (exec_ldVxK_of_key x s k hk)
      rw [State.writeV_pc]
      omega
  | _ =>
    rw [exec_keeps State.pc h (fun _ => rfl) fun _ => rfl]
    omega

/-- An instruction that runs with no fault latched leaves the latch empty or enters its own fault (R196). -/
theorem exec_faultLegal {i : Instr} {s t : State} (h : exec i s = .next t) (hs : s.fault = none) : t.faultLegal := by
  rcases exec_runState h with ⟨e, he, rfl⟩ | ⟨-, hfault⟩
  · exact s.enterFault_faultLegal (.inr (BitVec.sub_add_cancel s.pc 2).symm) he
  · exact State.faultLegal_of_none (hfault.trans hs)

/-! ## What a cycle keeps -/

/-- The advance of a fetch within memory. -/
theorem State.advance_pc_toNat {s : State} (h : s.pc.toNat ≤ 4094) : s.advance.pc.toNat = s.pc.toNat + 2 := by
  rw [State.advance_pc]
  bv_omega

/-- Every cycle that starts with no fault latched keeps the invariant but for the frame counter. -/
theorem cycle_keeps_cycleInv {s t : State} (hs : s.CycleInv) (hfault : s.fault = none) (h : cycle s = .next t) :
    t.CycleInv := by
  rcases cycle_cases s with ⟨-, hc⟩ | ⟨hp, i, -, hc⟩ | ⟨hp, r, -, hc⟩
  · rw [← Host.Outcome.next.inj (hc.symm.trans h)]
    exact hs.enterFault (.inl rfl) (Raise.outOfRange_legal s.pc)
  · have he := hc.symm.trans h
    have hpc := State.advance_pc_toNat hp
    exact ⟨exec_mem_wf he hs.memory, exec_pc_le he (by omega) (by omega) hs.returns,
      exec_returnsBounded he (by omega) (by omega) hs.returns, exec_faultLegal he hfault⟩
  · rw [← Host.Outcome.next.inj (hc.symm.trans h)]
    have hpc := State.advance_pc_toNat hp
    exact ⟨hs.memory, by rw [State.report_pc]; omega, hs.returns, State.faultLegal_of_none hfault⟩

/-- A cycle leaves `cpf` and the place in the frame. -/
theorem cycle_place {s t : State} (h : cycle s = .next t) : t.cpf = s.cpf ∧ t.cyclesLeft = s.cyclesLeft :=
  Prod.ext_iff.1 <| cycle_keeps (fun u => (u.cpf, u.cyclesLeft)) h (fun _ => rfl) (fun _ => rfl) fun _ _ he => by
    obtain ⟨-, hcpf, -, -, hleft, -⟩ := exec_hostState he
    exact Prod.ext hcpf hleft

/-- A cycle that ends with no fault latched leaves the run state (R31). -/
theorem cycle_run {s t : State} (h : cycle s = .next t) (ht : t.fault = none) : t.run = s.run := by
  rcases cycle_cases s with ⟨-, hc⟩ | ⟨-, i, -, hc⟩ | ⟨-, r, -, hc⟩
  · rw [← Host.Outcome.next.inj (hc.symm.trans h)] at ht
    cases ht
  · rcases exec_runState (hc.symm.trans h) with ⟨e, -, rfl⟩ | ⟨hrun, -⟩
    · cases ht
    · exact hrun
  · rw [← Host.Outcome.next.inj (hc.symm.trans h)]
    rfl

/-! ## What a step keeps -/

/-- The cycles left after this one are fewer than `cpf` (R171, R38). -/
theorem State.enterCycle_cyclesLeft_lt {s : State} (h : s.frameLegal) : s.enterCycle.cyclesLeft < s.cpf.val := by
  have hcpf := s.cpf.property
  have hleft := h.1
  rw [State.enterCycle_cyclesLeft]
  split <;> omega

/-- A step of a machine that is not stopped leaves its frame legal: a fault ends it, and nothing else in a cycle stops the
machine (R171, R196). -/
theorem leaveCycle_frameLegal {s u : State} (hs : s.frameLegal) (hstop : s.stopped = false)
    (h : cycle s.enterCycle = .next u) : u.leaveCycle.frameLegal := by
  obtain ⟨hcpf, hleft⟩ := cycle_place h
  have hlt := State.enterCycle_cyclesLeft_lt hs
  have hrun := ((State.stopped_eq_false_iff s).1 hstop).1
  cases hf : u.fault with
  | some f =>
    have hzero : u.leaveCycle.cyclesLeft = 0 := by simp [hf]
    exact ⟨hzero ▸ u.cpf.property, fun hne => absurd hzero hne⟩
  | none =>
    have hsame : u.leaveCycle.cyclesLeft = s.enterCycle.cyclesLeft := by simp [hf, hleft]
    refine ⟨?_, fun _ => (State.stopped_eq_false_iff _).2 ⟨?_, hf⟩⟩
    · rw [hsame, State.leaveCycle_cpf, hcpf]
      exact hlt
    · rw [State.leaveCycle_run, cycle_run h hf]
      exact hrun

/-- Settles O57: a stopped machine only empties its reports; otherwise the cycle keeps the invariant but for the frame
counter, which `leaveCycle` leaves legal. -/
theorem stepKeepsInvariant : Obligations.StepKeepsInvariant := by
  intro s t hs h
  cases hstop : s.stopped with
  | true =>
    rw [step_eq_next_of_stopped hstop h]
    exact ⟨hs.memory, hs.pcBound, hs.returns, hs.latch, hs.frame⟩
  | false =>
    obtain ⟨u, hu, rfl⟩ := step_eq_next_of_not_stopped hstop h
    have hfault : s.enterCycle.fault = none := ((State.stopped_eq_false_iff s).1 hstop).2
    exact (cycle_keeps_cycleInv hs.enterCycle hfault hu).leaveCycle (leaveCycle_frameLegal hs.frame hstop hu)

/-- Settles O56: the stack is empty, no fault is latched and no frame is in progress. -/
theorem resetMeetsInvariant : Obligations.ResetMeetsInvariant where
  memory := Memory.wf_nil
  pcBound := by decide
  returns := fun _ hk => absurd hk (Nat.not_lt_zero _)
  latch := State.faultLegal_of_none rfl
  frame := ⟨Config.cpf0.property, fun h => absurd rfl h⟩

end Sys2Proof.Machine

/-!
Stored code (R62, R144): each byte of a block store reads back as its register, so a store over the bytes at `pc` is
what the next fetch answers.
-/

namespace Sys2Proof.Machine

/-- After a block store of V[0] to V[x] at `a`, byte `a + k` holds V[k] (R144). -/
theorem Memory.read_writeBytes_readVs (m : Memory) (a : Nat) (s : State) {x k : Nibble} (h : k.toNat ≤ x.toNat) :
    (m.writeBytes a (s.readVs x)).read (a + k.toNat) = s.readV k := by
  have hk : k.toNat < x.toNat + 1 := Nat.lt_succ_of_le h
  rw [Memory.read_writeBytes_inside _ _ _ _ (by rwa [State.readVs_length]), State.readVs_get _ _ _ hk,
    BitVec.ofNat_toNat, BitVec.setWidth_eq]

/-- A block store that fits in memory writes V[0] to V[x] from `I` on (R144). -/
theorem exec_stRegs_of_le {x : Nibble} {s : State} (h : s.I.toNat + x.toNat ≤ 4095) :
    exec (.stRegs x) s = .next { s with mem := s.mem.writeBytes s.I.toNat (s.readVs x) } := by
  rcases exec_stRegs_cases x s with ⟨-, he⟩ | ⟨hlt, -⟩
  · exact he
  · omega

/-- A fetch with both its bytes in memory reads them (R91). -/
theorem State.fetch_of_le {s : State} (h : s.pc.toNat ≤ 4094) :
    s.fetch = .ok [s.mem.read s.pc.toNat, s.mem.read (s.pc.toNat + 1)] := by
  rcases s.fetch_cases with ⟨-, hf⟩ | ⟨hlt, -⟩
  · exact hf
  · omega

/-- Settles O37: the two bytes at `pc` are the first two of the store. -/
theorem storeIsSeenByNextFetch : Obligations.StoreIsSeenByNextFetch := by
  intro x s hx hpc hfit
  have hfirst : (s.mem.writeBytes s.I.toNat (s.readVs x)).read s.I.toNat = s.readV 0 :=
    Memory.read_writeBytes_readVs s.mem s.I.toNat s (k := 0) (Nat.zero_le x.toNat)
  have hsecond : (s.mem.writeBytes s.I.toNat (s.readVs x)).read (s.I.toNat + 1) = s.readV 1 :=
    Memory.read_writeBytes_readVs s.mem s.I.toNat s (k := 1) hx
  refine ⟨_, exec_stRegs_of_le hfit, ?_⟩
  rw [State.fetch_of_le (by rw [← hpc]; omega)]
  simp only [← hpc, hfirst, hsecond]

end Sys2Proof.Machine

/-!
The decoder against the encoder (R71 to R75, R77): an instruction's word decodes to the instruction, a word that
decodes is the word of its instruction, and a word that does not is in R77's table.
-/

namespace Sys2Proof.Machine

/-! ## From an instruction to its word and back -/

/-- Settles O1: the fields of each format read back, and the two levels of the lookup follow them. -/
theorem decodeOfEncode : Obligations.DecodeOfEncode := by
  intro i hwf
  cases i with
  | cls | ret => rfl
  | jpV0 nnn x =>
    have hx : x = nnn.extractLsb' 8 4 := by simpa [Instr.wellFormed] using hwf
    simp [encode, decode, hx]
  | ldReg | orReg | andReg | xorReg | addReg | subReg | subnReg | shr | shl => simp [encode, decode, decodeAlu]
  | skp | sknp => simp [encode, decode, decodeKey]
  | ldVxDt | ldDtVx | ldStVx | addI | ldVxK | ldF | ldB | stRegs | ldRegs => simp [encode, decode, decodeMisc]
  | _ => simp [encode, decode]

/-! ## From a word to its instruction and back -/

theorem packA_of_fields {w : Word} {op : Nibble} (hop : fieldOp w = op) : packA op (fieldNNN w) = w :=
  hop ▸ packA_fields w

theorem packXI_of_fields {w : Word} {op : Nibble} {nn : Byte} (hop : fieldOp w = op) (hnn : fieldNN w = nn) :
    packXI op (fieldX w) nn = w :=
  hop ▸ hnn ▸ packXI_fields w

theorem packXYN_of_fields {w : Word} {op n : Nibble} (hop : fieldOp w = op) (hn : fieldN w = n) :
    packXYN op (fieldX w) (fieldY w) n = w :=
  hop ▸ hn ▸ packXYN_fields w

/-- The selector of Bnnn is the top nibble of its address (R72, R109). -/
theorem fieldX_eq_extract_fieldNNN (w : Word) : fieldX w = (fieldNNN w).extractLsb' 8 4 := by
  rw [← fieldX_packA (fieldOp w), packA_fields]

/-- What an answer of the decoder may be: a well-formed instruction whose word is `w`, or the rejection of a word of
R77's table. -/
inductive ReadsWord (w : Word) : Except Rejection Instr → Prop
  | instruction {i : Instr} (hword : encode i = w) (hwf : i.wellFormed = true) : ReadsWord w (.ok i)
  | unimplemented (htable : UnimplementedWord w) : ReadsWord w (.error (.unimplemented w))

theorem decodeAlu_readsWord {w : Word} (hop : fieldOp w = 0x8) : ReadsWord w (decodeAlu w) := by
  unfold decodeAlu
  split
  case h_10 h0 h1 h2 h3 h4 h5 h6 h7 hE =>
    have rest : ∀ n : Nibble, n ≠ 0x0 → n ≠ 0x1 → n ≠ 0x2 → n ≠ 0x3 → n ≠ 0x4 → n ≠ 0x5 → n ≠ 0x6 → n ≠ 0x7 →
        n ≠ 0xE → n ∈ [0x8#4, 0x9#4, 0xA#4, 0xB#4, 0xC#4, 0xD#4, 0xF#4] := by decide
    exact .unimplemented (.inr (.inr (.inl ⟨hop, rest _ h0 h1 h2 h3 h4 h5 h6 h7 hE⟩)))
  all_goals exact .instruction (packXYN_of_fields hop ‹fieldN w = _›) rfl

theorem decodeKey_readsWord {w : Word} (hop : fieldOp w = 0xE) : ReadsWord w (decodeKey w) := by
  unfold decodeKey
  split
  case h_3 h1 h2 =>
    have hnn : fieldNN w ∉ [0x9E#8, 0xA1#8] := by
      simp only [List.mem_cons, List.not_mem_nil, or_false, not_or]
      exact ⟨h1, h2⟩
    exact .unimplemented (.inr (.inr (.inr (.inr (.inl ⟨hop, hnn⟩)))))
  all_goals exact .instruction (packXI_of_fields hop ‹fieldNN w = _›) rfl

theorem decodeMisc_readsWord {w : Word} (hop : fieldOp w = 0xF) : ReadsWord w (decodeMisc w) := by
  unfold decodeMisc
  split
  case h_10 h1 h2 h3 h4 h5 h6 h7 h8 h9 =>
    have hnn : fieldNN w ∉ [0x07#8, 0x0A#8, 0x15#8, 0x18#8, 0x1E#8, 0x29#8, 0x33#8, 0x55#8, 0x65#8] := by
      simp only [List.mem_cons, List.not_mem_nil, or_false, not_or]
      exact ⟨h1, h2, h3, h4, h5, h6, h7, h8, h9⟩
    exact .unimplemented (.inr (.inr (.inr (.inr (.inr ⟨hop, hnn⟩)))))
  all_goals exact .instruction (packXI_of_fields hop ‹fieldNN w = _›) rfl

/-- The family that the decoder's last arm answers for. -/
theorem nibble_eq_last {op : Nibble} (h : op ∉ [0x0#4, 0x1#4, 0x2#4, 0x3#4, 0x4#4, 0x5#4, 0x6#4, 0x7#4, 0x8#4, 0x9#4,
    0xA#4, 0xB#4, 0xC#4, 0xD#4, 0xE#4]) : op = 0xF := by
  revert op
  decide

/-- Everything the decoder can answer (R74, R77), family by family. -/
theorem decode_readsWord (w : Word) : ReadsWord w (decode w) := by
  unfold decode
  split
  case h_1 hop =>
    split
    · next h => exact .instruction h.symm rfl
    · next hcls =>
      split
      · next h => exact .instruction h.symm rfl
      · next hret => exact .unimplemented (.inl ⟨hop, hcls, hret⟩)
  case h_6 hop =>
    split
    · next hn => exact .instruction (packXYN_of_fields hop hn) rfl
    · next hn => exact .unimplemented (.inr (.inl ⟨hop, hn⟩))
  case h_9 hop => exact decodeAlu_readsWord hop
  case h_10 hop =>
    split
    · next hn => exact .instruction (packXYN_of_fields hop hn) rfl
    · next hn => exact .unimplemented (.inr (.inr (.inr (.inl ⟨hop, hn⟩))))
  case h_2 | h_3 | h_11 => exact .instruction (packA_of_fields ‹fieldOp w = _›) rfl
  case h_12 hop => exact .instruction (packA_of_fields hop) (by simp [Instr.wellFormed, fieldX_eq_extract_fieldNNN])
  case h_4 | h_5 | h_7 | h_8 | h_13 => exact .instruction (packXI_of_fields ‹fieldOp w = _› rfl) rfl
  case h_14 hop => exact .instruction (packXYN_of_fields hop rfl) rfl
  case h_15 hop => exact decodeKey_readsWord hop
  case h_16 h0 h1 h2 h3 h4 h5 h6 h7 h8 h9 hA hB hC hD hE =>
    refine decodeMisc_readsWord (nibble_eq_last ?_)
    simp only [List.mem_cons, List.not_mem_nil, or_false, not_or]
    exact ⟨h0, h1, h2, h3, h4, h5, h6, h7, h8, h9, hA, hB, hC, hD, hE⟩

/-- Settles O2, from the two answers the decoder can give. -/
theorem encodeOfDecode : Obligations.EncodeOfDecode := by
  intro w i h
  have hw := decode_readsWord w
  generalize decode w = r at h hw
  subst h
  cases hw with
  | instruction hword hwf => exact ⟨hword, hwf⟩

/-! ## Words and rows of the opcode map -/

/-- Every instruction's word matches its own row and no other (R74), from the lemma of each instruction. -/
theorem encodingFits (i : Instr) : Laws.EncodingFits.Statement i := by
  open Laws.EncodingFits in
  exact Instr.rec cls ret jp call seImm sneImm seReg sneReg ldImm addImm ldReg orReg andReg xorReg addReg subReg subnReg
    shr shl ldI jpV0 rnd drw skp sknp ldVxDt ldDtVx ldStVx addI ldVxK ldF ldB stRegs ldRegs i

/-- A word that decodes matches the row of the instruction it decodes to alone (R74). -/
theorem matchesOnly_of_decode {w : Word} {i : Instr} (h : decode w = .ok i) : Laws.MatchesOnly (opcodeRow i) w :=
  (encodeOfDecode w i h).1 ▸ encodingFits i

theorem rowMatches_whole_word (v w : Word) : rowMatches (0xFFFF, v) w = true ↔ w = v := by
  have hw : w &&& (0xFFFF : Word) = w := BitVec.and_allOnes
  rw [rowMatches, hw, beq_iff_eq]

/-- The mask of families 0x5, 0x8 and 0x9 selects `n` from `nn` (R71). -/
theorem fieldNN_and_low (w : Word) : fieldNN w &&& 0x0F#8 = (0x0#4 ++ fieldN w : Byte) := by
  have hsplit : fieldNN w = (fieldY w ++ fieldN w : Byte) := by
    rw [← fieldNN_packXI (fieldOp w) (fieldX w) (fieldY w ++ fieldN w), ← packXYN_eq_packXI, packXYN_fields]
  rw [hsplit, Laws.low_nibble]

/-- A word of R77's table has the digits of no row. -/
theorem UnimplementedWord.not_digits {w : Word} (h : UnimplementedWord w) :
    ∀ d ∈ Laws.opcodeDigits, ¬ (fieldOp w = d.1 ∧ fieldNN w &&& d.2.1 = d.2.2) := by
  have low_ne_zero : ∀ n : Nibble, n ≠ 0x0 → (0x0#4 ++ n : Byte) ≠ 0x00#8 := by decide
  have all (nn : Byte) : nn &&& 0xFF#8 = nn := BitVec.and_allOnes
  rcases h with ⟨hop, -, -⟩ | ⟨hop, hn⟩ | ⟨hop, hn⟩ | ⟨hop, hn⟩ | ⟨hop, hnn⟩ | ⟨hop, hnn⟩
  · simp [Laws.opcodeDigits, hop]
  · simpa [Laws.opcodeDigits, hop, fieldNN_and_low] using low_ne_zero _ hn
  · have low_ne : ∀ n ∈ [0x8#4, 0x9#4, 0xA#4, 0xB#4, 0xC#4, 0xD#4, 0xF#4],
        ∀ k ∈ [0x00#8, 0x01#8, 0x02#8, 0x03#8, 0x04#8, 0x05#8, 0x07#8, 0x06#8, 0x0E#8], (0x0#4 ++ n : Byte) ≠ k := by
      decide
    simpa [Laws.opcodeDigits, hop, fieldNN_and_low] using low_ne _ hn
  · simpa [Laws.opcodeDigits, hop, fieldNN_and_low] using low_ne_zero _ hn
  · simpa [Laws.opcodeDigits, hop, all] using hnn
  · simp only [List.mem_cons, List.not_mem_nil, or_false, not_or] at hnn
    simp [Laws.opcodeDigits, hop, all, hnn]

/-- A word of R77's table is neither 00E0 nor 00EE. -/
theorem UnimplementedWord.ne_whole_word {w v : Word} (h : UnimplementedWord w) (hv : v = 0x00E0 ∨ v = 0x00EE) :
    w ≠ v := by
  rintro rfl
  have hop : fieldOp w = 0x0 := by rcases hv with rfl | rfl <;> rfl
  have hne : w ≠ 0x00E0 ∧ w ≠ 0x00EE := by simpa [UnimplementedWord, hop] using h
  exact hv.elim hne.1 hne.2

/-- A word of R77's table matches no row of the opcode map. -/
theorem UnimplementedWord.matches_no_row {w : Word} (h : UnimplementedWord w) :
    ∀ row ∈ opcodeRows, ¬ rowMatches row w = true := by
  intro row hrow
  rw [Laws.opcodeRows_eq, List.mem_cons, List.mem_cons, List.mem_map] at hrow
  rcases hrow with rfl | rfl | ⟨d, hd, rfl⟩
  · rw [rowMatches_whole_word]
    exact h.ne_whole_word (.inl rfl)
  · rw [rowMatches_whole_word]
    exact h.ne_whole_word (.inr rfl)
  · rw [← packXI_fields w, Laws.Digits.row_matches]
    exact h.not_digits d hd

/-- Settles O4: a word that decodes matches its row, which no word of the table does. -/
theorem unimplementedWordsAreTheTable : Obligations.UnimplementedWordsAreTheTable := by
  intro w
  have hw := decode_readsWord w
  generalize hd : decode w = r at hw
  cases hw with
  | unimplemented htable => exact iff_of_true rfl htable
  | instruction hword hwf =>
    obtain ⟨hrow, honly⟩ := matchesOnly_of_decode hd
    exact iff_of_false nofun fun htable => htable.matches_no_row _ hrow ((honly _ hrow).2 rfl)

/-- Settles O3: the rows that a word matches are its instruction's row alone if it decodes, and none if it is in R77's
table. -/
theorem decodeFollowsOpcodeMap : Obligations.DecodeFollowsOpcodeMap := by
  intro w
  have hw := decode_readsWord w
  generalize hd : decode w = r at hw ⊢
  cases hw with
  | unimplemented htable =>
    have hnone := htable.matches_no_row
    exact ⟨nofun, fun row hrow h => absurd h (hnone row hrow), fun row hrow _ _ h => absurd h (hnone row hrow),
      fun _ => rfl⟩
  | @instruction i hword hwf =>
    obtain ⟨hrow, honly⟩ := matchesOnly_of_decode hd
    have hself : rowMatches (opcodeRow i) w = true := (honly _ hrow).2 rfl
    refine ⟨?_, fun row hr h => ⟨i, rfl, ((honly row hr).1 h).symm⟩, fun row hr row' hr' h h' => ?_, fun hnone => ?_⟩
    · rintro _ ⟨⟩
      exact ⟨hrow, hself⟩
    · rw [(honly row hr).1 h, (honly row' hr').1 h']
    · rw [hnone _ hrow] at hself
      cases hself

/-- Settles O5, by evaluation of the decoder at each word. -/
theorem handWrittenWordsDecode : Obligations.HandWrittenWordsDecode := by
  unfold Obligations.HandWrittenWordsDecode
  decide

/-! ## Every step answers -/

/-- A cycle answers whether its fetch faults, its word is an instruction or its word is unimplemented (R95, R96). -/
theorem cycle_answers (s : State) : ∃ t, cycle s = .next t := by
  rcases cycle_cases s with ⟨-, hc⟩ | ⟨-, i, -, hc⟩ | ⟨-, r, -, hc⟩
  · exact ⟨_, hc⟩
  · obtain ⟨t, ht, -⟩ := exec_answers i s.advance
    exact ⟨t, hc.trans ht⟩
  · exact ⟨_, hc⟩

/-- Settles O15: an instruction by its footprint, a step by its cycle. -/
theorem machineAlwaysAnswers : Obligations.MachineAlwaysAnswers := by
  refine ⟨fun i s => (exec_answers i s).imp fun _ h => h.1, fun s => ?_⟩
  cases hs : s.stopped with
  | true => exact ⟨_, step_of_stopped s hs⟩
  | false =>
    obtain ⟨u, hu⟩ := cycle_answers s.enterCycle
    exact ⟨u.leaveCycle, by rw [step_of_not_stopped s hs, hu, mapNext_next]⟩

end Sys2Proof.Machine

/-!
The cycle at its fetch (R90 to R95): what a step runs, what an unimplemented word and a fetch fault leave, and the word
placed where the next fetch reads.
-/

namespace Sys2Proof.Machine

/-! ## The instruction a step runs -/

/-- A step that can fetch runs the decoded word on the advanced state, inside its frame (R90 to R94, R171). -/
theorem step_of_decode {s : State} {i : Instr} (hs : s.stopped = false) (hp : s.pc.toNat ≤ 4094)
    (hd : decode s.fetchedWord = .ok i) : step s = mapNext State.leaveCycle (exec i s.enterCycle.advance) := by
  rw [step_of_not_stopped s hs, cycle_of_decode s.enterCycle i hp hd]

/-- Settles O6: entering the cycle, advancing and leaving the cycle are the updates the statement writes out. -/
theorem stepRunsDecodedInstruction : Obligations.StepRunsDecodedInstruction := by
  intro s i hs hp hd
  exact step_of_decode hs hp hd

/-! ## Unimplemented words -/

/-- A cycle that answers a state without a fault is followed by the rest of its frame (R171). -/
theorem runCycles_succ {s t : State} (k : Nat) (hc : cycle s = .next t) (ht : t.fault = none) :
    runCycles (k + 1) s = runCycles k t := by
  rw [runCycles, hc]
  simp [ht]

/-- Settles O7: a word of no row is rejected (R74), its cycle is the report on the advanced state, and that keeps the
latch. -/
theorem unimplementedIsReportedAndSkipped : Obligations.UnimplementedIsReportedAndSkipped := by
  intro s w hp hw hrows
  subst hw
  obtain ⟨-, -, -, hreject⟩ := decodeFollowsOpcodeMap s.fetchedWord
  have hc : cycle s = .next (s.advance.report s.pc s.fetchedWord) := cycle_of_reject s _ hp (hreject hrows)
  exact ⟨_, hc, rfl, fun hf k => runCycles_succ k hc hf⟩

/-! ## The fetch -/

/-- From 0x1000 on, the recorded address of a fetch fault is `pc` (R52). -/
theorem Raise.outOfRange_addr_of_le {a : Word} (h : 0x1000 ≤ a.toNat) :
    (Raise.outOfRange a.toNat).addr = a.setWidth 17 := by
  rw [Raise.outOfRange_addr, Nat.max_eq_left h, BitVec.ofNat_toNat]

/-- Settles O8: the fetch fault's address is the larger of `pc` and 0x1000. -/
theorem fetchReadsOrFaults : Obligations.FetchReadsOrFaults := by
  intro s
  refine ⟨State.fetch_of_le, fun hpc => ?_, fun hpc => ?_⟩
  · have hlt : 4094 < s.pc.toNat := by rw [hpc]; decide
    rw [cycle_of_fetch_fault s hlt, State.enterFault, Raise.outOfRange_addr, hpc]
    rfl
  · rw [cycle_of_fetch_fault s (by omega), State.enterFault, Raise.outOfRange_addr_of_le hpc, Raise.outOfRange_cause]

/-! ## The placed word (log entry 11) -/

section
variable (s : State) (bytes : List Byte)

theorem State.withFetchBytes_pc : (s.withFetchBytes bytes).pc =
    if s.pc.toNat ≤ 4094 then s.pc else BitVec.ofNat 16 Config.programBase := rfl

theorem State.withFetchBytes_run :
    (s.withFetchBytes bytes).run = if s.run = .paused then .running else s.run := rfl

/-- Placing an instruction clears what would stop the step (R171). -/
theorem State.withFetchBytes_stopped : (s.withFetchBytes bytes).stopped = false := by
  rw [State.stopped_eq_false_iff, State.withFetchBytes_run]
  refine ⟨?_, rfl⟩
  split
  · decide
  · assumption

/-- Both bytes of the placed instruction are in memory (R91). -/
theorem State.withFetchBytes_pc_le : (s.withFetchBytes bytes).pc.toNat ≤ 4094 := by
  rw [State.withFetchBytes_pc]
  split
  · assumption
  · decide

/-- Two bytes placed make the word that is fetched (R54, R91). -/
theorem State.withFetchBytes_fetchedWord (hi lo : Byte) :
    (s.withFetchBytes [hi, lo]).fetchedWord = bigEndian hi lo := by
  have hhi := Memory.read_writeBytes_inside s.mem (s.withFetchBytes [hi, lo]).pc.toNat [hi, lo] 0 Nat.zero_lt_two
  have hlo := Memory.read_writeBytes_inside s.mem (s.withFetchBytes [hi, lo]).pc.toNat [hi, lo] 1 Nat.one_lt_two
  exact congrArg₂ bigEndian hhi hlo

end

/-- A pair of bytes that decodes is a word that decodes (R70). -/
theorem decode_of_decodeBytes_pair {hi lo : Byte} {i : Instr} {rest : List Byte}
    (h : decodeBytes [hi, lo] = .ok (i, rest)) : decode (bigEndian hi lo) = .ok i := by
  rw [decodeBytes_pair] at h
  split at h
  · next j hd =>
    cases h
    exact hd
  · cases h

/-- The table's numbering of a word decodes as the word that placing it makes the fetch read. -/
theorem decode_withFetchWord {w : Nat} {i : Instr} (s : State) (h : decodeTableWord 16 w = some i) :
    decode (s.withFetchWord 16 w).fetchedWord = .ok i := by
  unfold decodeTableWord at h
  split at h
  · next j rest hd =>
    cases h
    exact (congrArg decode (s.withFetchBytes_fetchedWord _ _)).trans (decode_of_decodeBytes_pair hd)
  · cases h

/-- Settles O14: the state with the word placed is not stopped and fetches that word. -/
theorem placedWordIsRun : Obligations.PlacedWordIsRun := by
  intro s w i h
  exact step_of_decode (s.withFetchBytes_stopped _) (s.withFetchBytes_pc_le _) (decode_withFetchWord s h)

end Sys2Proof.Machine

/-!
Control transfer (spec/41_control_flow.md): the jumps and the skips write `pc` alone; a call and a return write `pc` and
the stack, from the depth before it.
-/

namespace Sys2Proof.Machine

/-! ## Jumps and skips: `pc` alone -/

/-- A write of `pc` leaves the rest of the state as it was. -/
theorem sameBesidePc (s : State) (p : Word) :
    SameRegistersBut [] s { s with pc := p } ∧ SameBesideRegisters s { s with pc := p } :=
  ⟨sameRegistersBut_of_eq rfl [], sameBesideRegisters_of_eq rfl⟩

/-- Settles O20: a 12-bit address is the same number as a 16-bit one. -/
theorem jumpSetsPc : Obligations.JumpSetsPc :=
  ⟨fun nnn => decodeOfEncode (.jp nnn) rfl,
    fun nnn s => ⟨_, rfl, BitVec.toNat_setWidth_of_le (by decide), sameBesidePc s _⟩⟩

/-- The target of Bnnn is at most 0xFFF + 0xFF, so the 16-bit addition does not wrap (R109). -/
theorem jumpTarget_toNat (nnn : Addr12) (b : Byte) :
    (nnn.setWidth 16 + b.setWidth 16 : Word).toNat = nnn.toNat + b.toNat := by
  have hnnn : (nnn.setWidth 16).toNat = nnn.toNat := BitVec.toNat_setWidth_of_le (by decide)
  have hb : (b.setWidth 16).toNat = b.toNat := BitVec.toNat_setWidth_of_le (by decide)
  rw [BitVec.toNat_add_of_lt (by omega), hnnn, hb]

/-- The offset of Bnnn as a number (R40, R109). -/
theorem State.jumpOffset_toNat (s : State) (x : Nibble) :
    (s.jumpOffset x).toNat = if s.complexJump then (s.readV x).toNat else (s.readV 0).toNat :=
  apply_ite BitVec.toNat _ _ _

/-- Settles O25: the sum does not wrap, and its offset is the register that complex-jump selects. -/
theorem jumpWithOffset : Obligations.JumpWithOffset := by
  refine ⟨fun nnn => decodeOfEncode (.jpV0 nnn _) (beq_self_eq_true _), fun nnn x s => ⟨_, rfl, ?_, sameBesidePc s _⟩⟩
  rw [← s.jumpOffset_toNat]
  exact jumpTarget_toNat nnn (s.jumpOffset x)

section
variable {i : Instr} {s : State} {P : Prop} [Decidable P]

/-- An instruction that skips when `P` (R100). -/
theorem exec_skips_when (h : exec i s = .next (s.skipIf (decide P))) :
    ∃ t, exec i s = .next t ∧ t.pc = (if P then s.pc + 2 else s.pc) ∧
      SameRegistersBut [] s t ∧ SameBesideRegisters s t :=
  ⟨_, h, by simp, sameBesidePc s _⟩

/-- An instruction that skips unless `P` (R100). -/
theorem exec_skips_unless (h : exec i s = .next (s.skipIf (decide ¬P))) :
    ∃ t, exec i s = .next t ∧ t.pc = (if P then s.pc else s.pc + 2) ∧
      SameRegistersBut [] s t ∧ SameBesideRegisters s t :=
  ⟨_, h, by simp, sameBesidePc s _⟩

end

/-- Settles O23: 3xnn skips when the register equals the immediate, 4xnn unless it does. -/
theorem skipsOnImmediate : Obligations.SkipsOnImmediate :=
  ⟨fun x nn => ⟨decodeOfEncode (.seImm x nn) rfl, decodeOfEncode (.sneImm x nn) rfl⟩,
    fun _ _ _ => ⟨exec_skips_when rfl, exec_skips_unless rfl⟩⟩

/-- A word of family 0x5 or 0x9 with `n` ≠ 0 is unimplemented (R77, decision D10). -/
theorem decode_packXYN_of_n_ne_zero {op n : Nibble} (hop : op = 0x5 ∨ op = 0x9) (hn : n ≠ 0) (x y : Nibble) :
    decode (packXYN op x y n) = .error (.unimplemented (packXYN op x y n)) := by
  rw [unimplementedWordsAreTheTable, UnimplementedWord, fieldOp_packXYN, fieldN_packXYN]
  rcases hop with hop | hop
  · exact .inr (.inl ⟨hop, hn⟩)
  · exact .inr (.inr (.inr (.inl ⟨hop, hn⟩)))

/-- Settles O24: 5xy0 skips when the registers are equal, 9xy0 unless they are. -/
theorem skipsOnRegisters : Obligations.SkipsOnRegisters :=
  ⟨fun x y => ⟨decodeOfEncode (.seReg x y) rfl, decodeOfEncode (.sneReg x y) rfl⟩,
    fun x y _ hn => ⟨decode_packXYN_of_n_ne_zero (.inl rfl) hn x y, decode_packXYN_of_n_ne_zero (.inr rfl) hn x y⟩,
    fun _ _ _ => ⟨exec_skips_when rfl, exec_skips_unless rfl⟩⟩

/-! ## Call and return: `pc` and the stack -/

/-- A state that differs in `pc` and the stack alone. -/
theorem sameBesidePcStack_of_eq {s t : State} (h : t = { s with pc := t.pc, stack := t.stack, sp := t.sp }) :
    SameRegistersBut [] s t ∧ SameMemory s t ∧ t.I = s.I ∧ SameTimers s t ∧ SameDisplay s t ∧
      SameRunState s t ∧ SameHostState s t ∧ t.draws = s.draws := by
  rw [h]
  exact ⟨sameRegistersBut_of_eq rfl [], fun _ => rfl, rfl, ⟨rfl, rfl⟩, fun _ _ => rfl, ⟨rfl, rfl⟩,
    ⟨rfl, rfl, rfl, rfl, rfl, rfl⟩, rfl⟩

/-- 00EE with `k + 1` entries takes the top one and leaves `k` (R101, R102). -/
theorem exec_ret_of_sp_succ {s : State} {k : Fin Config.stackDepth} (hk : s.sp.val = k.val + 1) :
    exec .ret s = .next { s with pc := s.stack[k], sp := k.castSucc } := by
  rcases exec_ret_cases s with ⟨_, _, he⟩ | ⟨h0, _⟩
  · have htop : s.sp.val - 1 = k.val := by omega
    rw [he]
    simp only [htop]
    rfl
  · omega

/-- 2nnn with `k` entries, `k` < 16, stores the advanced `pc` as entry `k` (R101, R104). -/
theorem exec_call_of_sp_lt {s : State} {k : Fin Config.stackDepth} (hk : s.sp.val = k.val) (nnn : Addr12) :
    exec (.call nnn) s =
      .next { s with stack := s.stack.set k s.pc k.isLt, sp := k.succ, pc := nnn.setWidth 16 } := by
  rcases exec_call_cases nnn s with ⟨_, he⟩ | ⟨hfull, _⟩
  · rw [he]
    simp only [hk]
    rfl
  · omega

/-- Settles O19, by the depth of the stack. -/
theorem retPopsOrFaults : Obligations.RetPopsOrFaults := by
  refine ⟨rfl, fun s k hk => ⟨_, exec_ret_of_sp_succ hk, rfl, rfl, rfl, sameBesidePcStack_of_eq rfl⟩, fun s h0 => ?_⟩
  rcases exec_ret_cases s with ⟨_, hpos, _⟩ | ⟨_, he⟩
  · omega
  · exact ⟨_, he, faultEntered_enterFault s _ 0 rfl⟩

/-- An entry of the stack after the entry `k` is stored (R101). -/
theorem stack_set_other {v : Vector Word Config.stackDepth} {j k : Fin Config.stackDepth} (h : j ≠ k) (p : Word) :
    (v.set k p k.isLt)[j] = v[j] :=
  Vector.getElem_set_ne k.isLt j.isLt fun he => h (Fin.ext he.symm)

/-- Settles O21, by the depth of the stack. -/
theorem callPushesOrFaults : Obligations.CallPushesOrFaults := by
  refine ⟨fun nnn => decodeOfEncode (.call nnn) rfl, fun nnn s k hk => ?_, fun nnn s hfull => ?_⟩
  · exact ⟨_, exec_call_of_sp_lt hk nnn, BitVec.toNat_setWidth_of_le (by decide), rfl, Vector.getElem_set_self k.isLt,
      fun j hj => stack_set_other hj s.pc, sameBesidePcStack_of_eq rfl⟩
  · rcases exec_call_cases nnn s with ⟨hlt, _⟩ | ⟨_, he⟩
    · exact absurd hfull (Nat.ne_of_lt hlt)
    · exact ⟨_, he, faultEntered_enterFault s _ 0 rfl⟩

/-- Settles O22: the call stores its return address as the entry at the depth `k` before it, so the return takes that
entry and leaves `k`. -/
theorem returnUndoesCall : Obligations.ReturnUndoesCall := by
  intro nnn s hlt
  obtain ⟨k, hk⟩ : ∃ k : Fin Config.stackDepth, s.sp.val = k.val := ⟨⟨s.sp.val, hlt⟩, rfl⟩
  refine ⟨_, exec_call_of_sp_lt hk nnn, fun t' hsp hstack => ?_⟩
  have hentry (j : Fin Config.stackDepth) : t'.stack[j] = (s.stack.set k s.pc k.isLt)[j] := congrArg (·[j]) hstack
  refine ⟨_, exec_ret_of_sp_succ (congrArg Fin.val hsp), ?_, Fin.ext hk.symm, fun j hj => ?_⟩
  · exact (hentry k).trans (Vector.getElem_set_self k.isLt)
  · exact (hentry j).trans (stack_set_other (Fin.ne_of_lt (Nat.lt_of_lt_of_eq hj hk)) s.pc)

end Sys2Proof.Machine

/-!
Register loads and the ALU (spec/42_alu.md): the loads, the logic and 7xnn write one register; the rest of the ALU
writes a result and then the flag, whose byte each flag computation gives as a number.
-/

namespace Sys2Proof.Machine

section
variable {i : Instr} {s : State} {x : Nibble} {b : Byte} {f : Bool}

/-- An instruction that writes one register and no flag (R121 to R126). -/
theorem exec_writes_register (h : exec i s = .next (s.writeV x b)) :
    ∃ t, exec i s = .next t ∧ t.readV x = b ∧ t.pc = s.pc ∧ SameRegistersBut [x] s t ∧ SameBesideRegisters s t :=
  ⟨_, h, s.readV_writeV_same x b, rfl, sameRegistersBut_writeV s x b, sameBesideRegisters_of_eq rfl⟩

/-- An instruction that writes a result and then the flag, which stands where the result's register is VF (R11, R37). -/
theorem exec_writes_result_then_flag (h : exec i s = .next ((s.writeV x b).setFlag f)) :
    ∃ t, exec i s = .next t ∧ (x ≠ 0xF → t.readV x = b) ∧ t.readV 0xF = flagByte f ∧ t.pc = s.pc ∧
      SameRegistersBut [x, 0xF] s t ∧ SameBesideRegisters s t :=
  ⟨_, h, State.readV_writeV_setFlag s x b f, State.readV_setFlag_flag _ f, rfl,
    sameRegistersBut_writeV_setFlag s x b f, sameBesideRegisters_of_eq rfl⟩

end

/-! ## Loads, logic and 7xnn: one register -/

/-- Settles O26: each of the five is one register write. -/
theorem loadsAndLogicWriteOneRegister : Obligations.LoadsAndLogicWriteOneRegister :=
  ⟨fun x nn => decodeOfEncode (.ldImm x nn) rfl,
    fun x y => ⟨decodeOfEncode (.ldReg x y) rfl, decodeOfEncode (.orReg x y) rfl, decodeOfEncode (.andReg x y) rfl,
      decodeOfEncode (.xorReg x y) rfl⟩,
    fun _ _ _ _ => ⟨exec_writes_register rfl, exec_writes_register rfl, exec_writes_register rfl,
      exec_writes_register rfl, exec_writes_register rfl⟩⟩

/-- Settles O27: the register written holds the 8-bit sum. -/
theorem addImmediateWrapsWithoutFlag : Obligations.AddImmediateWrapsWithoutFlag := by
  refine ⟨fun x nn => decodeOfEncode (.addImm x nn) rfl, fun x nn s => ?_⟩
  obtain ⟨t, he, hsum, hrest⟩ := exec_writes_register (i := .addImm x nn) (s := s) rfl
  exact ⟨t, he, hsum ▸ BitVec.toNat_add _ _, hrest⟩

/-! ## 8xy4 and 8xy5: the carry and the borrow -/

/-- The flag of 8xy4 (R127). -/
theorem flagByte_carryOut (a b : Byte) :
    flagByte (carryOut a b) = if a.toNat + b.toNat ≥ 256 then 0x01 else 0x00 := by
  simp [flagByte, carryOut]

/-- The flag of 8xy5, of the opposite polarity (R128). -/
theorem flagByte_noBorrow (a b : Byte) :
    flagByte (noBorrow a b) = if a.toNat < b.toNat then 0x00 else 0x01 := by
  by_cases h : a.toNat < b.toNat <;> simp [flagByte, noBorrow, h]

/-- Settles O28: the result is the 8-bit sum, the flag its ninth bit. -/
theorem addSetsCarry : Obligations.AddSetsCarry := by
  refine ⟨fun x y => decodeOfEncode (.addReg x y) rfl, fun x y s => ?_⟩
  obtain ⟨t, he, hsum, hflag, hrest⟩ := exec_writes_result_then_flag (i := .addReg x y) (s := s) rfl
  exact ⟨t, he, fun hx => hsum hx ▸ BitVec.toNat_add _ _, hflag.trans (flagByte_carryOut _ _), hrest⟩

/-- The 8-bit difference as a number (R128). -/
theorem sub_toNat_mod (a b : Byte) : (a - b).toNat = (a.toNat + 256 - b.toNat) % 256 := by
  bv_omega

/-- Settles O29: the result is the 8-bit difference, the flag the comparison of the operands. -/
theorem subClearsFlagOnBorrow : Obligations.SubClearsFlagOnBorrow := by
  refine ⟨fun x y => decodeOfEncode (.subReg x y) rfl, fun x y s => ?_⟩
  obtain ⟨t, he, hdiff, hflag, hrest⟩ := exec_writes_result_then_flag (i := .subReg x y) (s := s) rfl
  exact ⟨t, he, fun hx => hdiff hx ▸ sub_toNat_mod _ _, hflag.trans (flagByte_noBorrow _ _), hrest⟩

/-! ## 8xy7: the reverse subtraction keeps its register on underflow -/

section
variable {x y : Nibble} {s : State}

/-- With `V[x]` above `V[y]`, 8xy7 writes the flag alone (R130). -/
theorem exec_subnReg_of_gt (h : (s.readV x).toNat > (s.readV y).toNat) :
    exec (.subnReg x y) s = .next (s.setFlag true) :=
  congrArg Host.Outcome.next (if_pos (decide_eq_true h))

/-- With `V[x]` at most `V[y]`, 8xy7 writes the difference and clears the flag (R130). -/
theorem exec_subnReg_of_le (h : (s.readV x).toNat ≤ (s.readV y).toNat) :
    exec (.subnReg x y) s = .next ((s.writeV x (s.readV y - s.readV x)).setFlag false) :=
  congrArg Host.Outcome.next (if_neg fun hu => Nat.not_lt.mpr h (of_decide_eq_true hu))

end

/-- Settles O30, by the comparison of the operands. -/
theorem subnKeepsOnUnderflow : Obligations.SubnKeepsOnUnderflow := by
  refine ⟨fun x y => decodeOfEncode (.subnReg x y) rfl, fun x y s => ?_⟩
  rcases Nat.lt_or_ge (s.readV y).toNat (s.readV x).toNat with hgt | hle
  · exact ⟨_, exec_subnReg_of_gt hgt,
      fun _ => ⟨s.readV_setFlag_flag true, fun hx => s.readV_writeV_other _ hx⟩,
      fun hle => absurd hgt (Nat.not_lt.mpr hle), rfl,
      (sameRegistersBut_setFlag s true).mono (List.subset_cons_self _ _), sameBesideRegisters_of_eq rfl⟩
  · obtain ⟨t, he, hdiff, hflag, hrest⟩ := exec_writes_result_then_flag (exec_subnReg_of_le hle)
    exact ⟨t, he, fun hgt => absurd hgt (Nat.not_lt.mpr hle),
      fun _ => ⟨hflag, fun hx => hdiff hx ▸ BitVec.toNat_sub_of_le hle⟩, hrest⟩

/-! ## 8xy6 and 8xyE: the bit shifted out -/

/-- The flag as a number (R23). -/
theorem flagByte_toNat (f : Bool) : (flagByte f).toNat = f.toNat := by
  cases f <;> rfl

/-- The bit shifted out on the right is the remainder of halving (R129). -/
theorem flagByte_lowBit_toNat (v : Byte) : (flagByte (lowBit v)).toNat = v.toNat % 2 := by
  rw [flagByte_toNat, lowBit, BitVec.getLsbD, Nat.toNat_testBit, pow_zero, Nat.div_one]

/-- The bit shifted out on the left is the top one (R131). -/
theorem flagByte_highBit_toNat (v : Byte) : (flagByte (highBit v)).toNat = v.toNat / 128 := by
  have hv := v.isLt
  rw [flagByte_toNat, highBit, BitVec.getLsbD, Nat.toNat_testBit]
  omega

/-- Shifting right by one halves (R129). -/
theorem ushiftRight_one_toNat (v : Byte) : (v >>> 1).toNat = v.toNat / 2 := by
  rw [BitVec.toNat_ushiftRight, Nat.shiftRight_eq_div_pow, pow_one]

/-- Shifting left by one doubles modulo 256 (R131). -/
theorem shiftLeft_one_toNat (v : Byte) : (v <<< 1).toNat = v.toNat * 2 % 256 := by
  rw [BitVec.toNat_shiftLeft, Nat.shiftLeft_eq, pow_one]

/-- Settles O31: the operand is the register that shift-swap selects, and its shift and its lost bit are numbers. -/
theorem shiftsPutLostBitInFlag : Obligations.ShiftsPutLostBitInFlag := by
  refine ⟨fun x y => ⟨decodeOfEncode (.shr x y) rfl, decodeOfEncode (.shl x y) rfl⟩, fun x y s v hv => ?_⟩
  obtain rfl : v = s.shiftOperand x y := hv
  constructor
  · obtain ⟨t, he, hres, hflag, hrest⟩ := exec_writes_result_then_flag (i := .shr x y) (s := s) rfl
    exact ⟨t, he, fun hx => hres hx ▸ ushiftRight_one_toNat _, hflag ▸ flagByte_lowBit_toNat _, hrest⟩
  · obtain ⟨t, he, hres, hflag, hrest⟩ := exec_writes_result_then_flag (i := .shl x y) (s := s) rfl
    exact ⟨t, he, fun hx => hres hx ▸ shiftLeft_one_toNat _, hflag ▸ flagByte_highBit_toNat _, hrest⟩

end Sys2Proof.Machine

/-!
Index register, loads and stores (spec/43_index_memory.md): the index loads write `I` alone; a store writes its bytes at
`I` and a load the registers up to V[x], or the access leaves memory and the instruction faults (R52, R53).
-/

namespace Sys2Proof.Machine

/-! ## Annn, Fx29 and Fx1E: the index register -/

/-- An instruction that writes `I` alone (R140, R142). -/
theorem exec_writes_index {i : Instr} {s : State} {w : Word} (h : exec i s = .next { s with I := w }) :
    ∃ t, exec i s = .next t ∧ t.I = w ∧ t.pc = s.pc ∧
      SameRegistersBut [] s t ∧ SameMemory s t ∧ SameBesideData s t :=
  ⟨_, h, rfl, rfl, sameRegistersBut_of_eq rfl [], fun _ => rfl, sameBesideData_of_eq rfl⟩

/-- The low nibble of a byte is its remainder by 16 (R142). -/
theorem and_low_nibble_toNat (a : Byte) : (a &&& 0x0F).toNat = a.toNat % 16 :=
  Nat.and_two_pow_sub_one_eq_mod a.toNat 4

/-- The glyph address does not wrap (R142). -/
theorem glyphAddress_toNat (a : Byte) : (glyphAddress a).toNat = 0x50 + 5 * (a.toNat % 16) := by
  have hlow := and_low_nibble_toNat a
  unfold glyphAddress
  bv_omega

/-- Settles O32: each writes `I` alone, an address that fits in its 16 bits. -/
theorem indexLoads : Obligations.IndexLoads := by
  refine ⟨fun nnn => decodeOfEncode (.ldI nnn) rfl, fun x => decodeOfEncode (.ldF x) rfl, fun nnn s => ?_,
    fun x s => ?_⟩
  · obtain ⟨t, he, hI, hrest⟩ := exec_writes_index (i := .ldI nnn) (s := s) rfl
    exact ⟨t, he, hI ▸ BitVec.toNat_setWidth_of_le (by decide), hrest⟩
  · obtain ⟨t, he, hI, hrest⟩ := exec_writes_index (i := .ldF x) (s := s) rfl
    exact ⟨t, he, hI ▸ glyphAddress_toNat _, hrest⟩

/-- The 16-bit sum of Fx1E as a number (R141). -/
theorem indexSum_toNat (w : Word) (b : Byte) : (w + b.setWidth 16).toNat = (w.toNat + b.toNat) % 65536 := by
  rw [BitVec.toNat_add, BitVec.toNat_setWidth_of_le (by decide)]

section
variable {x : Nibble} {s : State} {w : Word} (hw : w = s.I + (s.readV x).setWidth 16)
include hw

/-- With the new index above 0x1000, Fx1E writes the flag after it (R141). -/
theorem exec_addI_of_gt (h : w.toNat > 0x1000) : exec (.addI x) s = .next ({ s with I := w }.setFlag true) := by
  subst hw
  exact congrArg Host.Outcome.next (if_pos (decide_eq_true h))

/-- With the new index at most 0x1000, Fx1E writes `I` alone (R141). -/
theorem exec_addI_of_le (h : w.toNat ≤ 0x1000) : exec (.addI x) s = .next { s with I := w } := by
  subst hw
  exact congrArg Host.Outcome.next (if_neg fun hu => Nat.not_lt.mpr h (of_decide_eq_true hu))

end

/-- Settles O33, by the comparison of the new index with 0x1000. -/
theorem addToIndexSetsFlagAbove0x1000 : Obligations.AddToIndexSetsFlagAbove0x1000 := by
  refine ⟨fun x => decodeOfEncode (.addI x) rfl, fun x s => ?_⟩
  obtain ⟨w, hw⟩ : ∃ w, w = s.I + (s.readV x).setWidth 16 := ⟨_, rfl⟩
  have hsum : w.toNat = (s.I.toNat + (s.readV x).toNat) % 65536 := hw ▸ indexSum_toNat _ _
  rcases Nat.lt_or_ge 0x1000 w.toNat with hgt | hle
  · exact ⟨_, exec_addI_of_gt hw hgt, hsum, (State.readV_setFlag_flag _ true).trans (if_pos hgt).symm, rfl,
      sameRegistersBut_setFlag { s with I := w } true, fun _ => rfl, sameBesideData_of_eq rfl⟩
  · obtain ⟨t, he, hI, hpc, hregs, hrest⟩ := exec_writes_index (exec_addI_of_le hw hle)
    subst hI
    exact ⟨t, he, hsum, (hregs 0xF List.not_mem_nil).trans (if_neg (Nat.not_lt.mpr hle)).symm, hpc,
      hregs.mono (List.nil_subset _), hrest⟩

/-! ## Fx33 and Fx55: the stores -/

section
variable {i : Instr} {s : State}

/-- An instruction that stores bytes at `I` (R53, R146). -/
theorem exec_stores_bytes {bytes : List Byte} {n : Nat}
    (h : exec i s = .next { s with mem := s.mem.writeBytes s.I.toNat bytes }) (hlen : bytes.length = n) :
    ∃ t, exec i s = .next t ∧ t.mem = s.mem.writeBytes s.I.toNat bytes ∧ SameMemoryOutside s.I.toNat n s t ∧
      t.I = s.I ∧ t.pc = s.pc ∧ SameRegistersBut [] s t ∧ SameBesideData s t :=
  ⟨_, h, rfl, fun a ha => Memory.read_writeBytes_outside _ _ _ a (hlen ▸ ha), rfl, rfl,
    sameRegistersBut_of_eq rfl [], sameBesideData_of_eq rfl⟩

/-- An instruction whose access at `I` leaves memory (R52, R53, R197). -/
theorem exec_raises_outOfRange (h : exec i s = .next (s.enterFault s.ia (Raise.outOfRange s.I.toNat))) :
    ∃ t, exec i s = .next t ∧ FaultEntered s t .addressOutOfRange (max s.I.toNat 4096) :=
  ⟨_, h, faultEntered_enterFault s _ _ rfl⟩

end

/-- Settles O34, by whether the three digits fit. -/
theorem storeDecimalDigits : Obligations.StoreDecimalDigits := by
  refine ⟨fun x => decodeOfEncode (.ldB x) rfl, fun x s hfit => ?_, fun x s hout => ?_⟩
  · rcases exec_ldB_cases x s with ⟨-, he⟩ | ⟨hgt, -⟩
    · obtain ⟨t, he, hmem, hrest⟩ := exec_stores_bytes he (decimalDigits_length _)
      have hread (k : Nat) (hk : k < 3) : t.mem.read (s.I.toNat + k) = (decimalDigits (s.readV x))[k] :=
        hmem ▸ Memory.read_writeBytes_inside _ _ (decimalDigits (s.readV x)) k hk
      exact ⟨t, he, congrArg BitVec.toNat (hread 0 (by decide)), congrArg BitVec.toNat (hread 1 (by decide)),
        congrArg BitVec.toNat (hread 2 (by decide)), hrest⟩
    · omega
  · rcases exec_ldB_cases x s with ⟨hle, -⟩ | ⟨-, he⟩
    · omega
    · exact exec_raises_outOfRange he

/-- Settles O35, by whether V[0] to V[x] fit. -/
theorem storeRegisters : Obligations.StoreRegisters := by
  refine ⟨fun x => decodeOfEncode (.stRegs x) rfl, fun x s hfit => ?_, fun x s hout => ?_⟩
  · obtain ⟨t, he, hmem, hrest⟩ := exec_stores_bytes (exec_stRegs_of_le hfit) (s.readVs_length x)
    exact ⟨t, he, fun k hk => hmem ▸ Memory.read_writeBytes_readVs _ _ s hk, hrest⟩
  · rcases exec_stRegs_cases x s with ⟨hle, -⟩ | ⟨-, he⟩
    · omega
    · exact exec_raises_outOfRange he

/-! ## Fx65: the load -/

/-- After a block load of `x + 1` bytes from `a`, V[k] holds byte `a + k` (R145). -/
theorem State.readV_writeVs_readBytes (s : State) (m : Memory) (a : Nat) {x k : Nibble} (h : k.toNat ≤ x.toNat) :
    (s.writeVs 0 (m.readBytes a (x.toNat + 1))).readV k = m.read (a + k.toNat) := by
  have hx := x.isLt
  have hk : k.toNat < x.toNat + 1 := Nat.lt_succ_of_le h
  rw [State.readV_writeVs _ _ _ (by rw [Memory.readBytes_length]; omega), if_pos (Nat.zero_le _), Nat.sub_zero,
    List.getD_eq_getElem _ _ (by rwa [Memory.readBytes_length]), Memory.readBytes_get _ _ _ _ hk]

/-- A block load leaves everything but the registers as it was (R145). -/
theorem sameBesideRegisters_writeVs (s : State) (i : Nat) (bytes : List Byte) :
    (s.writeVs i bytes).pc = s.pc ∧ SameBesideRegisters s (s.writeVs i bytes) := by
  rw [State.writeVs_eq]
  exact ⟨rfl, sameBesideRegisters_of_eq rfl⟩

/-- Settles O36, by whether the `x + 1` bytes are in memory. -/
theorem loadRegisters : Obligations.LoadRegisters := by
  refine ⟨fun x => decodeOfEncode (.ldRegs x) rfl, fun x s hfit => ?_, fun x s hout => ?_⟩
  · rcases exec_ldRegs_cases x s with ⟨-, he⟩ | ⟨hgt, -⟩
    · exact ⟨_, he, fun k hk => s.readV_writeVs_readBytes _ _ hk, fun k hk =>
        sameRegistersBut_writeVs s x _ (Memory.readBytes_length _ _ _) k
          (mt mem_writtenRegisters_ldRegs.1 (Nat.not_le.mpr hk)), sameBesideRegisters_writeVs s 0 _⟩
    · omega
  · rcases exec_ldRegs_cases x s with ⟨hle, -⟩ | ⟨-, he⟩
    · omega
    · exact exec_raises_outOfRange he

end Sys2Proof.Machine

/-!
Display (spec/44_display.md): the pixels that Dxyn draws are those under the unclipped set bits of its sprite, so the
law of a whole draw by XOR gives its framebuffer and its flag; a second draw of the same sprite inverts the same pixels.
-/

namespace Sys2Proof.Machine

/-- A state that differs in the registers and the framebuffer alone. -/
theorem sameBesideDisplay_of_eq {s t : State} (h : t = { s with V := t.V, fb := t.fb }) :
    SameMemory s t ∧ SameStack s t ∧ SameTimers s t ∧ SameRunState s t ∧ SameHostState s t ∧ t.draws = s.draws := by
  rw [h]
  exact ⟨fun _ => rfl, ⟨rfl, rfl⟩, ⟨rfl, rfl⟩, ⟨rfl, rfl⟩, ⟨rfl, rfl, rfl, rfl, rfl, rfl⟩, rfl⟩

/-- Settles O38: a blank framebuffer has no pixel on. -/
theorem clearTurnsEveryPixelOff : Obligations.ClearTurnsEveryPixelOff :=
  ⟨rfl, fun _ => ⟨_, rfl, Framebuffer.pixel_blank, rfl, rfl, sameRegistersBut_of_eq rfl [],
    sameBesideDisplay_of_eq rfl⟩⟩

/-! ## The sprite's pixels -/

section
variable (x y n : Nibble) (s : State)

/-- The processed rows end with the sprite's `n` rows or with the grid, whichever comes first (R152). -/
theorem State.lt_spriteRowCount_iff (r : Nat) : r < spriteRow (s.readV y) + s.spriteRowCount y n ↔
    r < spriteRow (s.readV y) + n.toNat ∧ r < 32 := by
  unfold State.spriteRowCount spriteRow
  omega

theorem State.spritePixel_iff (r c : Nat) : s.spritePixel x y n r c = true ↔
    (spriteRow (s.readV y) ≤ r ∧ r < spriteRow (s.readV y) + n.toNat ∧ r < 32 ∧ spriteColumn (s.readV x) ≤ c ∧
      c < spriteColumn (s.readV x) + 8 ∧ c < 64) ∧
    (s.mem.read (s.I.toNat + (r - spriteRow (s.readV y)))).getLsbD (7 - (c - spriteColumn (s.readV x))) = true :=
  Bool.and_eq_true_iff.trans (and_congr_left' decide_eq_true_iff)

/-- The bits drawn from the bytes of the processed rows are the sprite's unclipped set bits (R152). -/
theorem State.spriteLit_iff_spritePixel (r c : Nat) :
    spriteLit (s.mem.readBytes s.I.toNat (s.spriteRowCount y n)) (spriteRow (s.readV y)) (spriteColumn (s.readV x)) r c ↔
      s.spritePixel x y n r c = true := by
  have hrows := s.lt_spriteRowCount_iff y n r
  rw [State.spritePixel_iff, spriteLit, Memory.readBytes_length]
  by_cases hr : spriteRow (s.readV y) ≤ r ∧ r < spriteRow (s.readV y) + s.spriteRowCount y n
  · have hk : r - spriteRow (s.readV y) < s.spriteRowCount y n := by omega
    rw [List.getD_eq_getElem _ _ (by rwa [Memory.readBytes_length]), Memory.readBytes_get _ _ _ _ hk, hrows]
    simp only [and_assoc]
  · refine iff_of_false ?_ ?_
    · rintro ⟨hlo, hhi, -⟩
      exact hr ⟨hlo, hhi⟩
    · rintro ⟨⟨hlo, hhi, hgrid, -⟩, -⟩
      exact hr ⟨hlo, hrows.2 ⟨hhi, hgrid⟩⟩

/-- What Dxyn draws is the XOR of the sprite's pixels into the framebuffer, flagged on a collision (R152). -/
theorem State.drawn_xorOf : XorOf s.fb false (fun r c => s.spritePixel x y n r c = true) (s.drawn x y n) := by
  refine (drawBytes_spec _ _ _ _ ?_).congr fun r c => (s.spriteLit_iff_spritePixel x y n r c).symm
  rw [Memory.readBytes_length]
  exact spriteRows_fit n (s.readV y)

/-- The XOR as an equation of pixels (R152). -/
theorem State.drawn_pixel (r c : Nat) :
    (s.drawn x y n).1.pixel r c = (s.fb.pixel r c ^^ s.spritePixel x y n r c) := by
  rw [Bool.eq_iff_iff, (s.drawn_xorOf x y n).pixels, Bool.xor_iff_ne]
  exact not_congr Bool.eq_iff_iff.symm

/-- The collision flag of a draw (R152). -/
theorem State.drawn_flag :
    (s.drawn x y n).2 = true ↔ ∃ r c, s.spritePixel x y n r c = true ∧ s.fb.pixel r c = true := by
  rw [(s.drawn_xorOf x y n).flag]
  simp only [Bool.false_eq_true, false_or]

end

/-! ## One draw -/

section
variable {x y n : Nibble} {s : State}

/-- With the processed rows in memory, or none of them, Dxyn writes the framebuffer and then the flag (R152). -/
theorem exec_drw_of_inRange (h : s.spriteRowCount y n = 0 ∨ s.I.toNat + s.spriteRowCount y n - 1 ≤ 4095) :
    exec (.drw x y n) s = .next ({ s with fb := (s.drawn x y n).1 }.setFlag (s.drawn x y n).2) := by
  have hrows : spriteRows n (spriteRow (s.readV y)) = s.spriteRowCount y n := rfl
  rcases exec_drw_cases x y n s with ⟨-, he⟩ | ⟨hpos, hgt, -⟩
  · exact he
  · omega

/-- With a processed row outside memory, Dxyn faults (R152, R197). -/
theorem exec_drw_of_outOfRange (hpos : 0 < s.spriteRowCount y n) (h : s.I.toNat + s.spriteRowCount y n - 1 > 4095) :
    exec (.drw x y n) s = .next (s.enterFault s.ia (Raise.outOfRange s.I.toNat)) := by
  have hrows : spriteRows n (spriteRow (s.readV y)) = s.spriteRowCount y n := rfl
  rcases exec_drw_cases x y n s with ⟨hin, -⟩ | ⟨-, -, he⟩
  · omega
  · exact he

end

/-- Settles O39, by whether the processed rows are in memory. -/
theorem drawXorsAndDetectsCollision : Obligations.DrawXorsAndDetectsCollision := by
  refine ⟨fun x y n => decodeOfEncode (.drw x y n) rfl, fun x y n s hin => ?_, fun x y n s hpos hout =>
    exec_raises_outOfRange (exec_drw_of_outOfRange hpos hout)⟩
  have hflag : ({ s with fb := (s.drawn x y n).1 }.setFlag (s.drawn x y n).2).readV 0xF = flagByte (s.drawn x y n).2 :=
    State.readV_setFlag_flag _ _
  refine ⟨_, exec_drw_of_inRange hin, s.drawn_pixel x y n, fun hhit => ?_, fun hnone => ?_,
    sameRegistersBut_setFlag { s with fb := (s.drawn x y n).1 } _, rfl, rfl, sameBesideDisplay_of_eq rfl⟩
  · rw [hflag, (s.drawn_flag x y n).2 hhit, flagByte_true]
  · have hfalse : (s.drawn x y n).2 = false := by
      rw [Bool.eq_false_iff, Ne, s.drawn_flag]
      rintro ⟨r, c, hlit, hon⟩
      exact Bool.false_ne_true ((hnone r c hlit).symm.trans hon)
    rw [hflag, hfalse, flagByte_false]

/-! ## The second draw -/

/-- A sprite is its two position registers, `I` and memory (R152). -/
theorem State.spritePixel_congr {x y : Nibble} {s t : State} (hx : t.readV x = s.readV x) (hy : t.readV y = s.readV y)
    (hI : t.I = s.I) (hmem : SameMemory s t) (n : Nibble) (r c : Nat) :
    t.spritePixel x y n r c = s.spritePixel x y n r c := by
  simp only [State.spritePixel, hx, hy, hI, hmem _]

/-- The processed rows are those of the row register (R152). -/
theorem State.spriteRowCount_congr {y : Nibble} {s t : State} (hy : t.readV y = s.readV y) (n : Nibble) :
    t.spriteRowCount y n = s.spriteRowCount y n := by
  unfold State.spriteRowCount
  rw [hy]

/-- Settles O40: neither position register is VF, so both draws are of one sprite, whose second XOR undoes the first;
a pixel under it is on after the first draw exactly when it was off before. -/
theorem drawTwiceRestores : Obligations.DrawTwiceRestores := by
  obtain ⟨-, hdraw, hraise⟩ := drawXorsAndDetectsCollision
  intro x y n s t hx hy _ h ht
  by_cases hin : s.spriteRowCount y n = 0 ∨ s.I.toNat + s.spriteRowCount y n - 1 ≤ 4095
  · obtain ⟨t', he, hfb, -, -, hregs, -, hI, hmem, -⟩ := hdraw x y n s hin
    obtain rfl := exec_next_unique he h
    have hVx := hregs x (by simpa using hx)
    have hVy := hregs y (by simpa using hy)
    have hsprite := State.spritePixel_congr hVx hVy hI hmem n
    rw [← State.spriteRowCount_congr hVy n, ← hI] at hin
    obtain ⟨u, hu, hfb', hhit, hnone, -⟩ := hdraw x y n t' hin
    simp only [hsprite] at hfb' hhit hnone
    have hinverts (r c : Nat) (hbit : s.spritePixel x y n r c = true) : t'.fb.pixel r c = !s.fb.pixel r c := by
      rw [hfb, hbit, Bool.xor_true]
    refine ⟨u, hu, Framebuffer.ext_pixel fun r c _ => ?_, fun hone => ?_, ?_⟩
    · rw [hfb', hfb, Bool.xor_assoc, Bool.xor_self, Bool.xor_false]
    · by_contra hlit
      have hzero := hnone fun r c hbit => by
        rw [hinverts r c hbit, Bool.not_eq_false', ← Bool.not_eq_false]
        exact fun hoff => hlit ⟨r, c, hbit, hoff⟩
      exact absurd (hone.symm.trans hzero) (by decide)
    · rintro ⟨r, c, hbit, hoff⟩
      exact hhit ⟨r, c, hbit, by rw [hinverts r c hbit, hoff, Bool.not_false]⟩
  · obtain ⟨t', he, hfault, -⟩ := hraise x y n s (by omega) (by omega)
    rw [exec_next_unique h he, hfault] at ht
    cases ht

end Sys2Proof.Machine

/-!
Timers, keys, random (spec/45_timers_keys_random.md): none of these instructions can fault; each writes one register, a
timer, or `pc` by the latched key. What is out of their reach is out of the reach of every instruction but the six that
can fault.
-/

namespace Sys2Proof.Machine

/-! ## What only the host writes, and the run state -/

/-- An instruction outside the six that can fault leaves the run state and the latch (R31, R32, R191). -/
theorem exec_sameRunState {i : Instr} {s t : State} (h : exec i s = .next t)
    (hi : ∀ nnn x y n,
      i ≠ .ret ∧ i ≠ .call nnn ∧ i ≠ .drw x y n ∧ i ≠ .ldB x ∧ i ≠ .stRegs x ∧ i ≠ .ldRegs x) :
    SameRunState s t := by
  cases i with
  | ret => simpa using hi 0 0 0 0
  | call nnn => simpa using hi nnn 0 0 0
  | drw x y n => simpa using hi 0 x y n
  | ldB x | stRegs x | ldRegs x => simpa using hi 0 x 0 0
  | ldVxK x =>
    cases hk : s.key with
    | none =>
      obtain rfl := exec_next_unique h (exec_ldVxK_of_none x s hk)
      exact ⟨rfl, rfl⟩
    | some k =>
      obtain rfl := exec_next_unique h (exec_ldVxK_of_key x s k hk)
      exact ⟨rfl, rfl⟩
  | subnReg | addI =>
    obtain rfl := exec_next_unique h rfl
    split <;> exact ⟨rfl, rfl⟩
  | _ =>
    obtain rfl := exec_next_unique h rfl
    exact ⟨rfl, rfl⟩

/-- Settles O47: the host's fields from every footprint, the run state from the instructions without a fault. -/
theorem hostStateIsOutOfReach : Obligations.HostStateIsOutOfReach :=
  fun _ _ _ h => ⟨exec_hostState h, exec_sameRunState h⟩

/-! ## Cxnn: a masked free byte -/

/-- A masked byte has no bit outside the mask (R160). -/
theorem masked_and_not_mask (b nn : Byte) : b &&& nn &&& ~~~nn = 0 := by
  rw [BitVec.and_assoc, BitVec.and_not_self]
  exact BitVec.and_zero

/-- Settles O41: one register write, and the draw counter. -/
theorem randomByteIsMasked : Obligations.RandomByteIsMasked := by
  refine ⟨fun x nn => decodeOfEncode (.rnd x nn) rfl, fun x nn s => ?_⟩
  have hread := s.readV_writeV_same x (Config.rnd s.draws &&& nn)
  obtain ⟨hmem, hI, hstack, htimers, hfb, hrun, hhost, -⟩ :
      SameBesideRegisters s (s.writeV x (Config.rnd s.draws &&& nn)) := sameBesideRegisters_of_eq rfl
  exact ⟨_, rfl, hread, (congrArg (· &&& ~~~nn) hread).trans (masked_and_not_mask _ nn), rfl, rfl,
    sameRegistersBut_writeV s x _, hmem, hI, hstack, htimers, hfb, hrun, hhost⟩

/-! ## Ex9E, ExA1 and Fx0A: the latched key -/

/-- No key is latched that is the whole byte `a` (R162). -/
theorem State.keyIs_eq_false_iff (s : State) (a : Byte) :
    s.keyIs a = false ↔ ∀ k, s.key = some k → k.toNat ≠ a.toNat := by
  rw [← Bool.not_eq_true, s.keyIs_iff]
  push Not
  rfl

/-- An instruction that skips when the bit `c` is set (R100). -/
theorem exec_skips_on_bit {i : Instr} {s : State} {c : Bool} (h : exec i s = .next (s.skipIf c)) :
    ∃ t, exec i s = .next t ∧ (c = true → t.pc = s.pc + 2) ∧ (c = false → t.pc = s.pc) ∧
      SameRegistersBut [] s t ∧ SameBesideRegisters s t :=
  ⟨_, h, fun hc => by rw [hc]; rfl, fun hc => by rw [hc]; rfl, sameBesidePc s _⟩

/-- Settles O42: Ex9E skips on the comparison of the latched key with V[x], ExA1 on its complement. -/
theorem keySkipsAreComplementary : Obligations.KeySkipsAreComplementary := by
  refine ⟨fun x => ⟨decodeOfEncode (.skp x) rfl, decodeOfEncode (.sknp x) rfl⟩, fun x s => ?_⟩
  simp only [← State.keyIs_iff, ← State.keyIs_eq_false_iff]
  constructor
  · exact exec_skips_on_bit rfl
  · obtain ⟨t, he, hskip, hgo, hrest⟩ := exec_skips_on_bit (i := .sknp x) (s := s) rfl
    exact ⟨t, he, fun hk => hgo (by rw [hk]; rfl), fun hk => hskip (by rw [hk]; rfl), hrest⟩

/-- Settles O43, by whether a key is latched. -/
theorem keyWaitPolls : Obligations.KeyWaitPolls := by
  refine ⟨fun x => decodeOfEncode (.ldVxK x) rfl, fun x k s hk => ?_, fun x s hk => ?_⟩
  · obtain ⟨t, he, hread, hrest⟩ := exec_writes_register (exec_ldVxK_of_key x s k hk)
    exact ⟨t, he, hread ▸ BitVec.toNat_setWidth_of_le (by decide), hrest⟩
  · exact ⟨_, exec_ldVxK_of_none x s hk, rfl, sameBesidePc s _⟩

/-! ## Fx07, Fx15 and Fx18: the timers -/

/-- A state that differs in the timers alone. -/
theorem sameBesideTimers_of_eq {s t : State} (h : t = { s with dt := t.dt, st := t.st }) :
    t.pc = s.pc ∧ SameRegistersBut [] s t ∧ SameMemory s t ∧ t.I = s.I ∧ SameStack s t ∧ SameDisplay s t ∧
      SameRunState s t ∧ SameHostState s t ∧ t.draws = s.draws := by
  rw [h]
  exact ⟨rfl, sameRegistersBut_of_eq rfl [], fun _ => rfl, rfl, ⟨rfl, rfl⟩, fun _ _ => rfl, ⟨rfl, rfl⟩,
    ⟨rfl, rfl, rfl, rfl, rfl, rfl⟩, rfl⟩

/-- Settles O44: Fx07 is a register write, Fx15 and Fx18 are each a write of one timer. -/
theorem timerMoves : Obligations.TimerMoves :=
  ⟨fun x => ⟨decodeOfEncode (.ldVxDt x) rfl, decodeOfEncode (.ldDtVx x) rfl, decodeOfEncode (.ldStVx x) rfl⟩,
    fun _ _ => ⟨exec_writes_register rfl, ⟨_, rfl, rfl, rfl, sameBesideTimers_of_eq rfl⟩,
      ⟨_, rfl, rfl, rfl, sameBesideTimers_of_eq rfl⟩⟩⟩

end Sys2Proof.Machine

/-!
The frame as a trace (R171): the cycles that `runCycles` runs, numbered, with the state before and after each. What
holds of every state of a frame is one induction along its trace.
-/

namespace Sys2Proof.Machine

/-! ## The trace of a frame -/

/-- A frame of at most `k` cycles from `s` to `t` runs `n` of them: `trace j` is the state after the first `j`. Each
starts from a machine that is not stopped, and a frame cut short ends in a fault (R171, R196). -/
structure FrameTrace (k : Nat) (s t : State) (n : Nat) (trace : Nat → State) : Prop where
  first : trace 0 = s
  last : trace n = t
  length_le : n ≤ k
  length_eq : t.fault = none → n = k
  running : ∀ j < n, (trace j).stopped = false
  next : ∀ j < n, cycle (trace j) = .next (trace (j + 1))

/-- The trace with one more state in front. -/
def consTrace (s : State) (trace : Nat → State) : Nat → State
  | 0 => s
  | j + 1 => trace j

/-- A frame that runs no further cycle: none is left, or the last one faulted. -/
theorem FrameTrace.stay {k : Nat} {s : State} (h : s.fault = none → k = 0) : FrameTrace k s s 0 fun _ => s where
  first := rfl
  last := rfl
  length_le := Nat.zero_le k
  length_eq hs := (h hs).symm
  running _ hj := absurd hj (Nat.not_lt_zero _)
  next _ hj := absurd hj (Nat.not_lt_zero _)

/-- One cycle before the rest of the frame. -/
theorem FrameTrace.cons {k n : Nat} {s u t : State} {trace : Nat → State} (hs : s.stopped = false)
    (hc : cycle s = .next u) (h : FrameTrace k u t n trace) : FrameTrace (k + 1) s t (n + 1) (consTrace s trace) where
  first := rfl
  last := h.last
  length_le := Nat.succ_le_succ h.length_le
  length_eq ht := congrArg (· + 1) (h.length_eq ht)
  running
    | 0, _ => hs
    | j + 1, hj => h.running j (Nat.lt_of_succ_lt_succ hj)
  next
    | 0, _ => hc.trans (congrArg _ h.first.symm)
    | j + 1, hj => h.next j (Nat.lt_of_succ_lt_succ hj)

/-- What a cycle of a machine that is not stopped keeps holds all along the frame. -/
theorem FrameTrace.holds {k n : Nat} {s t : State} {trace : Nat → State} (h : FrameTrace k s t n trace)
    {P : State → Prop} (hs : P s) (hkeep : ∀ u v, u.stopped = false → cycle u = .next v → P u → P v) :
    ∀ j ≤ n, P (trace j) := by
  intro j hj
  induction j with
  | zero => rwa [h.first]
  | succ j ih => exact hkeep _ _ (h.running j hj) (h.next j hj) (ih (Nat.le_of_succ_le hj))

/-- What a cycle of a machine that is not stopped keeps holds at the end of the frame. -/
theorem FrameTrace.holds_last {k n : Nat} {s t : State} {trace : Nat → State} (h : FrameTrace k s t n trace)
    {P : State → Prop} (hs : P s) (hkeep : ∀ u v, u.stopped = false → cycle u = .next v → P u → P v) : P t :=
  h.last ▸ h.holds hs hkeep n le_rfl

/-- A frame of at least one cycle, from a state without a fault, runs one. -/
theorem FrameTrace.one_le {k n : Nat} {s t : State} {trace : Nat → State} (h : FrameTrace k s t n trace) (hk : 1 ≤ k)
    (hs : s.fault = none) : 1 ≤ n := by
  by_contra hlt
  obtain rfl : n = 0 := by omega
  have ht : t = s := h.last.symm.trans h.first
  have := h.length_eq (ht ▸ hs)
  omega

/-- A cycle that ends with no fault latched, of a machine that is not stopped, does not stop it (R196). -/
theorem cycle_not_stopped {s t : State} (hs : s.stopped = false) (h : cycle s = .next t) (ht : t.fault = none) :
    t.stopped = false := by
  rw [State.stopped_eq_false_iff] at hs ⊢
  exact ⟨cycle_run h ht ▸ hs.1, ht⟩

theorem runCycles_succ_of_fault {s t : State} (k : Nat) (hc : cycle s = .next t) (ht : t.fault ≠ none) :
    runCycles (k + 1) s = .next t := by
  rw [runCycles, hc]
  simp [Option.isSome_iff_ne_none.2 ht]

/-- Cycles run from a machine that is not stopped answer the end of a trace. -/
theorem runCycles_trace (k : Nat) {s : State} (hs : s.stopped = false) :
    ∃ t n trace, runCycles k s = .next t ∧ FrameTrace k s t n trace := by
  induction k generalizing s with
  | zero => exact ⟨s, 0, _, rfl, .stay fun _ => rfl⟩
  | succ k ih =>
    obtain ⟨u, hu⟩ := cycle_answers s
    by_cases hf : u.fault = none
    · obtain ⟨t, n, trace, ht, htrace⟩ := ih (cycle_not_stopped hs hu hf)
      exact ⟨t, n + 1, _, (runCycles_succ k hu hf).trans ht, htrace.cons hs hu⟩
    · exact ⟨u, 1, _, runCycles_succ_of_fault k hu hf, .cons hs hu (.stay fun h => absurd h hf)⟩

/-! ## The frame stepper -/

theorem stepFrame_of_stopped {s : State} (h : s.stopped = true) : stepFrame s = .next s.idle := by
  simp [stepFrame, h]

theorem stepFrame_of_not_stopped {s : State} (h : s.stopped = false) :
    stepFrame s = runCycles s.cpf.val s.beginFrame := by
  simp [stepFrame, h]

/-- A frame of a machine that is not stopped answers the end of a trace of `cpf` cycles at most (R171). -/
theorem stepFrame_trace {s : State} (h : s.stopped = false) :
    ∃ t n trace, stepFrame s = .next t ∧ FrameTrace s.cpf.val s.beginFrame t n trace := by
  rw [stepFrame_of_not_stopped h]
  exact runCycles_trace s.cpf.val (s := s.beginFrame) h

/-- Every frame answers (R171). -/
theorem stepFrame_answers (s : State) : ∃ t, stepFrame s = .next t := by
  cases hs : s.stopped with
  | true => exact ⟨_, stepFrame_of_stopped hs⟩
  | false =>
    obtain ⟨t, -, -, ht, -⟩ := stepFrame_trace hs
    exact ⟨t, ht⟩

/-- The host's `step_frame` answers the frame's reports and latch (R171). -/
theorem State.hostFrame_of_stepFrame {s t : State} (h : stepFrame s = .next t) :
    s.hostFrame = .next (t, .frame t.reports t.fault) := by
  rw [State.hostFrame, h]

/-- The host's `step_frame` between frames. -/
theorem hostOp_stepFrame {s t : State} (h : s.cyclesLeft = 0) (ht : stepFrame s = .next t) :
    hostOp .stepFrame s = .next (t, .frame t.reports t.fault) :=
  (hostOp_between_frames .stepFrame h).trans (State.hostFrame_of_stepFrame ht)

/-- Settles O9: Paused or a latched fault is what stops the machine. -/
theorem stoppedMachineIsUnchanged : Obligations.StoppedMachineIsUnchanged := by
  intro s h
  have hs : s.stopped = true := s.stopped_iff.2 (h.imp_right Option.isSome_iff_ne_none.2)
  exact ⟨step_of_stopped s hs, stepFrame_of_stopped hs⟩

/-! ## The reports of a cycle -/

/-- A cycle appends the word it fetched to the reports if it is in R77's table, and nothing otherwise (R95). -/
theorem cycle_reports {s t : State} (h : cycle s = .next t) :
    (s.pc.toNat ≤ 4094 ∧ UnimplementedWord s.fetchedWord → t.reports = s.reports ++ [⟨s.pc, s.fetchedWord⟩]) ∧
      (¬(s.pc.toNat ≤ 4094 ∧ UnimplementedWord s.fetchedWord) → t.reports = s.reports) := by
  have htable := unimplementedWordsAreTheTable s.fetchedWord
  rcases cycle_cases s with ⟨hlt, hc⟩ | ⟨-, i, hd, hc⟩ | ⟨hp, r, hd, hc⟩
  · rw [← Host.Outcome.next.inj (hc.symm.trans h)]
    exact ⟨fun hw => absurd hw.1 (Nat.not_le_of_lt hlt), fun _ => rfl⟩
  · obtain ⟨-, -, -, -, -, hreports⟩ := exec_hostState (hc.symm.trans h)
    refine ⟨fun hw => ?_, fun _ => hreports⟩
    have := hd.symm.trans (htable.2 hw.2)
    cases this
  · rw [← Host.Outcome.next.inj (hc.symm.trans h)]
    refine ⟨fun _ => rfl, fun hw => absurd ⟨hp, ?_⟩ hw⟩
    have hread := decode_readsWord s.fetchedWord
    rw [hd] at hread
    cases hread with
    | unimplemented hw => exact hw

/-- Settles O11: the trace of the frame, with the reports of each of its cycles. -/
theorem frameRunsCyclesInOrder : Obligations.FrameRunsCyclesInOrder := by
  intro s h0
  cases hs : s.stopped with
  | true =>
    have ht := stepFrame_of_stopped hs
    exact ⟨_, ht, hostOp_stepFrame h0 ht, fun _ => rfl, nofun⟩
  | false =>
    obtain ⟨t, n, trace, ht, h⟩ := stepFrame_trace hs
    have hone : 1 ≤ n := h.one_le s.cpf.property ((State.stopped_eq_false_iff s).1 hs).2
    refine ⟨t, ht, hostOp_stepFrame h0 ht, nofun, fun _ =>
      ⟨n, trace, hone, h.length_le, h.first, h.last, h.length_eq, fun j hj => ?_⟩⟩
    exact ⟨((State.stopped_eq_false_iff _).1 (h.running j hj)).2, h.next j hj, cycle_reports (h.next j hj)⟩

/-! ## The frame by single steps -/

/-- `s` with `c` cycles of its frame left. -/
def State.withCyclesLeft (s : State) (c : Nat) : State := { s with cyclesLeft := c }

/-- Accesses that agree, followed by effects that agree but for the frame counter. -/
theorem orRaise_withCyclesLeft {α : Type} (r : Except Raise α) (s : State) {k k' : α → State} {c : Nat}
    (hk : ∀ a, k' a = (k a).withCyclesLeft c) :
    orRaise r (s.withCyclesLeft c) k' = mapNext (·.withCyclesLeft c) (orRaise r s k) := by
  cases r with
  | error e => rfl
  | ok a => rw [orRaise_ok, orRaise_ok, hk, mapNext_next]

theorem State.writeVs_withCyclesLeft (s : State) (c i : Nat) (bytes : List Byte) :
    (s.withCyclesLeft c).writeVs i bytes = (s.writeVs i bytes).withCyclesLeft c := by
  induction bytes generalizing s i with
  | nil => rfl
  | cons b bs ih => exact ih (s.writeV (BitVec.ofNat 4 i) b) (i + 1)

/-- One outcome, with and without the frame counter replaced. -/
theorem exec_withCyclesLeft_of_next {i : Instr} {s t : State} {c : Nat} (h : exec i s = .next t)
    (h' : exec i (s.withCyclesLeft c) = .next (t.withCyclesLeft c)) :
    exec i (s.withCyclesLeft c) = mapNext (·.withCyclesLeft c) (exec i s) := by
  rw [h', h, mapNext_next]

/-- No instruction looks at the frame counter (log entry 1). -/
theorem exec_withCyclesLeft (i : Instr) (s : State) (c : Nat) :
    exec i (s.withCyclesLeft c) = mapNext (·.withCyclesLeft c) (exec i s) := by
  cases i with
  | ret =>
    by_cases h : s.sp.val = 0
    · simp [exec, execRet, State.pop, State.withCyclesLeft, State.enterFault, State.ia, h]
    · simp [exec, execRet, State.pop, State.withCyclesLeft, h]
  | call nnn =>
    by_cases h : s.sp.val < Config.stackDepth
    · simp [exec, execCall, State.push, State.withCyclesLeft, h]
    · simp [exec, execCall, State.push, State.withCyclesLeft, State.enterFault, State.ia, h]
  | drw | ldB | stRegs => exact orRaise_withCyclesLeft _ s fun _ => rfl
  | ldRegs x => exact orRaise_withCyclesLeft _ s fun _ => s.writeVs_withCyclesLeft c _ _
  | ldVxK x =>
    cases hk : s.key with
    | none => exact exec_withCyclesLeft_of_next (exec_ldVxK_of_none x s hk) (exec_ldVxK_of_none x _ hk)
    | some k => exact exec_withCyclesLeft_of_next (exec_ldVxK_of_key x s k hk) (exec_ldVxK_of_key x _ k hk)
  | subnReg x y =>
    rcases Nat.lt_or_ge (s.readV y).toNat (s.readV x).toNat with h | h
    · exact exec_withCyclesLeft_of_next (exec_subnReg_of_gt h) (exec_subnReg_of_gt h)
    · exact exec_withCyclesLeft_of_next (exec_subnReg_of_le h) (exec_subnReg_of_le h)
  | addI x =>
    rcases Nat.lt_or_ge 0x1000 (s.I + (s.readV x).setWidth 16).toNat with h | h
    · exact exec_withCyclesLeft_of_next (exec_addI_of_gt rfl h) (exec_addI_of_gt rfl h)
    · exact exec_withCyclesLeft_of_next (exec_addI_of_le rfl h) (exec_addI_of_le rfl h)
  | _ => rfl

/-- A cycle does not look at the frame counter (log entry 1). -/
theorem cycle_withCyclesLeft {s t : State} (c : Nat) (h : cycle s = .next t) :
    cycle (s.withCyclesLeft c) = .next (t.withCyclesLeft c) := by
  rcases cycle_cases s with ⟨hlt, hc⟩ | ⟨hp, i, hd, hc⟩ | ⟨hp, r, hd, hc⟩
  · rw [← Host.Outcome.next.inj (hc.symm.trans h)]
    exact cycle_of_fetch_fault (s.withCyclesLeft c) hlt
  · calc
      cycle (s.withCyclesLeft c) = exec i (s.advance.withCyclesLeft c) :=
        cycle_of_decode (s.withCyclesLeft c) i hp hd
      _ = .next (t.withCyclesLeft c) := by rw [exec_withCyclesLeft, ← hc, h, mapNext_next]
  · rw [← Host.Outcome.next.inj (hc.symm.trans h)]
    exact cycle_of_reject (s.withCyclesLeft c) r hp hd

/-- The first cycle of a frame starts from `beginFrame` (R171). -/
theorem State.enterCycle_between_frames {s : State} (h : s.cyclesLeft = 0) :
    s.enterCycle = s.beginFrame.withCyclesLeft (s.cpf.val - 1) := by
  simp [State.enterCycle, State.beginFrame, State.withCyclesLeft, h]

/-- Every other cycle of a frame only counts down (R171). -/
theorem State.enterCycle_within_frame (s : State) (c : Nat) :
    (s.withCyclesLeft (c + 1)).enterCycle = s.withCyclesLeft c := rfl

theorem State.leaveCycle_of_no_fault {s : State} (h : s.fault = none) (c : Nat) :
    (s.withCyclesLeft c).leaveCycle = s.withCyclesLeft c :=
  congrArg s.withCyclesLeft (if_neg (by simp [State.withCyclesLeft, h]))

theorem State.leaveCycle_of_fault {s : State} (h : s.fault ≠ none) (c : Nat) :
    (s.withCyclesLeft c).leaveCycle = s.withCyclesLeft 0 :=
  congrArg s.withCyclesLeft (if_pos (Option.isSome_iff_ne_none.2 h))

/-- A step runs its cycle with the frame counter that the entry to the cycle sets. -/
theorem step_of_enterCycle {s u w : State} {c : Nat} (hs : s.stopped = false) (he : s.enterCycle = u.withCyclesLeft c)
    (hc : cycle u = .next w) : step s = .next (w.withCyclesLeft c).leaveCycle := by
  rw [step_of_not_stopped s hs, he, cycle_withCyclesLeft c hc, mapNext_next]

/-- A run of one more step ends with that step. -/
theorem core_run_succ_of_run {k : Nat} {s t u : State} (h : core.run k s = .next t) (ht : step t = .next u) :
    core.run (k + 1) s = .next u := by
  induction k generalizing s with
  | zero =>
    obtain rfl : s = t := Host.Outcome.next.inj h
    exact core_run_succ 0 ht
  | succ k ih =>
    obtain ⟨v, hv⟩ := machineAlwaysAnswers.2 s
    rw [core_run_succ k hv] at h
    rw [core_run_succ (k + 1) hv]
    exact ih h

/-- The first steps of a machine between frames go along the trace of its frame, counting down. -/
theorem FrameTrace.core_run {n : Nat} {s t : State} {trace : Nat → State}
    (h : FrameTrace s.cpf.val s.beginFrame t n trace) (h0 : s.cyclesLeft = 0) (hs : s.stopped = false) :
    ∀ j < n, core.run (j + 1) s = .next ((trace (j + 1)).withCyclesLeft (s.cpf.val - (j + 1))).leaveCycle := by
  intro j hj
  have hcycle := h.next j hj
  induction j with
  | zero =>
    rw [h.first] at hcycle
    exact core_run_succ 0 (step_of_enterCycle hs (State.enterCycle_between_frames h0) hcycle)
  | succ j ih =>
    have hrun := ih (Nat.lt_of_succ_lt hj) (h.next j (Nat.lt_of_succ_lt hj))
    have hstop := h.running (j + 1) hj
    have hleft : s.cpf.val - (j + 1) = s.cpf.val - (j + 1 + 1) + 1 := by have := h.length_le; omega
    rw [State.leaveCycle_of_no_fault ((State.stopped_eq_false_iff _).1 hstop).2, hleft] at hrun
    exact core_run_succ_of_run hrun (step_of_enterCycle hstop (State.enterCycle_within_frame _ _) hcycle)

/-- A frame counts no cycles left at its end: none is left, or a fault ended it (R171, R196). -/
theorem FrameTrace.leaveCycle_last {k n : Nat} {s t : State} {trace : Nat → State} (h : FrameTrace k s t n trace)
    (h0 : s.cyclesLeft = 0) : (t.withCyclesLeft (k - n)).leaveCycle = t := by
  have hleft : t.cyclesLeft = 0 := h.holds_last (P := fun u => u.cyclesLeft = 0) h0 fun _ _ _ hc hu =>
    (cycle_place hc).2.trans hu
  have hsame : t.withCyclesLeft 0 = t := hleft ▸ rfl
  by_cases ht : t.fault = none
  · rw [State.leaveCycle_of_no_fault ht, h.length_eq ht, Nat.sub_self, hsame]
  · exact (State.leaveCycle_of_fault ht _).trans hsame

/-- Settles O10: the steps go along the trace of the frame, to its end. -/
theorem frameIsItsCycles : Obligations.FrameIsItsCycles := by
  intro s h0 hs
  obtain ⟨t, n, trace, ht, h⟩ := stepFrame_trace hs
  have hrun := h.core_run h0 hs
  obtain ⟨m, rfl⟩ := Nat.exists_eq_add_of_le' (h.one_le s.cpf.property ((State.stopped_eq_false_iff s).1 hs).2)
  refine ⟨m + 1, Nat.succ_pos m, h.length_le, ?_, fun u hu => ?_, fun j hj1 hj => ?_⟩
  · have hend := hrun m (Nat.lt_succ_self m)
    rw [h.last, h.leaveCycle_last h0] at hend
    exact hend.trans ht.symm
  · rw [← Host.Outcome.next.inj (ht.symm.trans hu)]
    exact h.length_eq
  · obtain ⟨i, rfl⟩ := Nat.exists_eq_add_of_le' hj1
    have hfault := ((State.stopped_eq_false_iff _).1 (h.running (i + 1) hj)).2
    exact ⟨_, (hrun i (Nat.lt_of_succ_lt hj)).trans (congrArg _ (State.leaveCycle_of_no_fault hfault _)), rfl, hfault⟩

/-! ## A frame that waits -/

/-- A cycle that answers its own state is repeated to the end of the frame. -/
theorem runCycles_of_fixed {s : State} (k : Nat) (hc : cycle s = .next s) (hf : s.fault = none) :
    runCycles k s = .next s := by
  induction k with
  | zero => rfl
  | succ k ih => rw [runCycles_succ k hc hf, ih]

/-- A jump to its own address changes nothing (R183). -/
theorem cycle_of_self_jump {s : State} {nnn : Addr12} (hp : s.pc.toNat ≤ 4094) (hpc : nnn.toNat = s.pc.toNat)
    (hd : decode s.fetchedWord = .ok (.jp nnn)) : cycle s = .next s := by
  have htarget : nnn.setWidth 16 = s.pc :=
    BitVec.eq_of_toNat_eq ((BitVec.toNat_setWidth_of_le (by decide)).trans hpc)
  calc
    cycle s = .next { s with pc := nnn.setWidth 16 } := cycle_of_decode s _ hp hd
    _ = .next s := by rw [htarget]

/-- A wait with no key latched changes nothing (R164). -/
theorem cycle_of_key_wait {s : State} {x : Nibble} (hp : s.pc.toNat ≤ 4094) (hk : s.key = none)
    (hd : decode s.fetchedWord = .ok (.ldVxK x)) : cycle s = .next s := by
  have hback : s.advance.pc - 2 = s.pc := BitVec.add_sub_cancel s.pc 2
  rw [cycle_of_decode s _ hp hd, exec_ldVxK_of_none x s.advance hk, hback]
  rfl

/-- Settles O13: both waits are cycles that answer their own state, from `beginFrame` on. -/
theorem waitingFrameChangesOnlyTimers : Obligations.WaitingFrameChangesOnlyTimers := by
  intro s hs hp hwait
  have hcycle : cycle s.beginFrame = .next s.beginFrame := by
    rcases hwait with ⟨nnn, hpc, hd⟩ | ⟨hk, x, hd⟩
    · exact cycle_of_self_jump hp hpc hd
    · exact cycle_of_key_wait hp hk hd
  rw [stepFrame_of_not_stopped hs]
  exact runCycles_of_fixed s.cpf.val hcycle ((State.stopped_eq_false_iff s).1 hs).2

end Sys2Proof.Machine

/-!
The host's operations between frames (spec/46_frame_stepper_and_host.md): what each does to the run state and the latch,
to the rest of the state and to the invariant, and what the ports read.
-/

namespace Sys2Proof.Machine

/-- The two answers of `set_cpf`, each with its condition (R177). -/
theorem State.setCpf_cases (s : State) (n : Nat) :
    (n = 0 ∧ s.setCpf n = (s, .refused)) ∨ ∃ hn : 1 ≤ n, s.setCpf n = ({ s with cpf := ⟨n, hn⟩ }, .ok) := by
  rcases Nat.eq_zero_or_pos n with h0 | hn
  · exact .inl ⟨h0, dif_neg (by omega)⟩
  · exact .inr ⟨hn, dif_pos hn⟩

/-! ## The invariant, for every operation -/

/-- The rest of the invariant is the invariant when no frame is in progress. -/
theorem State.CycleInv.inv_between_frames {s : State} (h : s.CycleInv) (h0 : s.cyclesLeft = 0) : s.Inv :=
  ⟨h.memory, h.pcBound, h.returns, h.latch, h0 ▸ s.cpf.property, fun hne => absurd h0 hne⟩

/-- An operation that answers runs between frames (R170). -/
theorem hostOp_eq_next {o : HostOp} {s : State} {p : State × HostResult} (h : hostOp o s = .next p) :
    s.cyclesLeft = 0 ∧ hostOpNow o s = .next p := by
  unfold hostOp at h
  split at h
  · next h0 => exact ⟨h0, h⟩
  · cases h

/-- A frame keeps the invariant: each of its cycles keeps all but the clause of the frame counter, which stays 0. -/
theorem stepFrame_keeps_inv {s t : State} (hs : s.Inv) (h0 : s.cyclesLeft = 0) (h : stepFrame s = .next t) : t.Inv := by
  cases hstop : s.stopped with
  | true =>
    rw [← Host.Outcome.next.inj ((stepFrame_of_stopped hstop).symm.trans h)]
    exact ⟨hs.memory, hs.pcBound, hs.returns, hs.latch, hs.frame⟩
  | false =>
    obtain ⟨u, n, trace, hu, htrace⟩ := stepFrame_trace hstop
    rw [← Host.Outcome.next.inj (hu.symm.trans h)]
    have hbegin : s.beginFrame.CycleInv := ⟨hs.memory, hs.pcBound, hs.returns, hs.latch⟩
    obtain ⟨hinv, hleft⟩ := htrace.holds_last (P := fun v => v.CycleInv ∧ v.cyclesLeft = 0) ⟨hbegin, h0⟩
      fun v w hv hc hP =>
        ⟨cycle_keeps_cycleInv hP.1 ((State.stopped_eq_false_iff v).1 hv).2 hc, (cycle_place hc).2.trans hP.2⟩
    exact hinv.inv_between_frames hleft

section
variable {s : State} (hs : s.Inv) (h0 : s.cyclesLeft = 0)
include hs h0

/-- A program that fits lies within memory, and a machine that `load` starts has no fault latched (R172). -/
theorem State.Inv.load (bytes : List Byte) : (s.load bytes).1.Inv := by
  rcases s.load_cases bytes with ⟨-, hl⟩ | ⟨-, -, hl⟩ | ⟨hf, hlen, hl⟩
  · rwa [hl]
  · rwa [hl]
  · rw [hl]
    have hfit : 0x200 + bytes.length ≤ 4096 := by omega
    exact State.CycleInv.inv_between_frames
      ⟨Memory.wf_writeBytes hs.memory hfit, hs.pcBound, hs.returns, State.faultLegal_of_none hf⟩ h0

/-- The glyph table lies within memory (R173). -/
theorem State.Inv.loadGlyphs (glyph : Vector Byte 80) : (s.loadGlyphs glyph).1.Inv := by
  have hfit : Config.glyphBase + glyph.toList.length ≤ Config.memSize := by
    rw [Vector.length_toList]
    decide
  exact State.CycleInv.inv_between_frames
    ⟨Memory.wf_writeBytes hs.memory hfit, hs.pcBound, hs.returns, hs.latch⟩ h0

/-- Paused is what a latched fault asks of the run state (R174, R32). -/
theorem State.Inv.pause : s.pause.1.Inv :=
  State.CycleInv.inv_between_frames
    ⟨hs.memory, hs.pcBound, hs.returns, fun f hf => ⟨rfl, (hs.latch f hf).2⟩⟩ h0

/-- A machine that `resume` starts has no fault latched (R175). -/
theorem State.Inv.resume : s.resume.1.Inv := by
  rcases s.resume_cases with ⟨-, hr⟩ | ⟨hf, hr⟩
  · rwa [hr]
  · rw [hr]
    exact State.CycleInv.inv_between_frames
      ⟨hs.memory, hs.pcBound, hs.returns, State.faultLegal_of_none hf⟩ h0

/-- `cpf` matters to a frame in progress alone (R177). -/
theorem State.Inv.setCpf (n : Nat) : (s.setCpf n).1.Inv := by
  rcases s.setCpf_cases n with ⟨-, hc⟩ | ⟨hn, hc⟩
  · rwa [hc]
  · rw [hc]
    exact State.CycleInv.inv_between_frames ⟨hs.memory, hs.pcBound, hs.returns, hs.latch⟩ h0

end

/-- What `reset` leaves is the power-on state but for the configuration (R220). -/
theorem State.hostReset_inv (s : State) : s.hostReset.1.Inv :=
  State.CycleInv.inv_between_frames
    ⟨resetMeetsInvariant.memory, resetMeetsInvariant.pcBound, resetMeetsInvariant.returns, resetMeetsInvariant.latch⟩
    rfl

/-- The state an operation answers, from what the operation is between frames. -/
theorem state_of_answer {p : State × HostResult} {t : State} {r : HostResult}
    (h : (.next p : Host.Outcome (State × HostResult) Fault Refusal) = .next (t, r)) : t = p.1 :=
  congrArg Prod.fst (Host.Outcome.next.inj h).symm

/-- Settles O58, one operation at a time: a frame by its cycles, the others by the fields they write. -/
theorem hostOperationsKeepInvariant : Obligations.HostOperationsKeepInvariant := by
  intro o s t r hs h
  obtain ⟨h0, hnow⟩ := hostOp_eq_next h
  cases o with
  | stepFrame =>
    obtain ⟨u, hu⟩ := stepFrame_answers s
    rw [state_of_answer ((State.hostFrame_of_stepFrame hu).symm.trans hnow)]
    exact stepFrame_keeps_inv hs h0 hu
  | load bytes => exact state_of_answer hnow ▸ hs.load h0 bytes
  | loadGlyphs => exact state_of_answer hnow ▸ hs.loadGlyphs h0 Config.glyph
  | pause => exact state_of_answer hnow ▸ hs.pause h0
  | resume => exact state_of_answer hnow ▸ hs.resume h0
  | reset => exact state_of_answer hnow ▸ s.hostReset_inv
  | setCpf n => exact state_of_answer hnow ▸ hs.setCpf h0 n
  | keySet | keyClear | setShiftSwap | setComplexJump =>
    rw [state_of_answer hnow]
    exact ⟨hs.memory, hs.pcBound, hs.returns, hs.latch, hs.frame⟩

/-! ## The run-state machine (R181) -/

/-- A cycle that latches a fault pauses the machine (R196). -/
theorem cycle_run_of_fault {s t : State} (h : cycle s = .next t) (hs : s.fault = none) (ht : t.fault ≠ none) :
    t.run = .paused := by
  rcases cycle_cases s with ⟨-, hc⟩ | ⟨-, i, -, hc⟩ | ⟨-, r, -, hc⟩
  · rw [← Host.Outcome.next.inj (hc.symm.trans h)]
    rfl
  · rcases exec_runState (hc.symm.trans h) with ⟨e, -, rfl⟩ | ⟨-, hfault⟩
    · rfl
    · exact absurd (hfault.trans hs) ht
  · rw [← Host.Outcome.next.inj (hc.symm.trans h)] at ht
    exact absurd hs ht

/-- A frame leaves the run state or, with a fault, Paused (R171, R181). -/
theorem stepFrame_run {s t : State} (hs : s.stopped = false) (h : stepFrame s = .next t) :
    t.run = if t.fault = none then s.run else .paused := by
  obtain ⟨u, n, trace, hu, htrace⟩ := stepFrame_trace hs
  rw [← Host.Outcome.next.inj (hu.symm.trans h)]
  refine htrace.holds_last (P := fun v => v.run = if v.fault = none then s.run else .paused) ?_ fun v w hv hc hP => ?_
  · exact (if_pos ((State.stopped_eq_false_iff s).1 hs).2).symm
  · have hfault := ((State.stopped_eq_false_iff v).1 hv).2
    split
    · next hw => rw [cycle_run hc hw, hP, if_pos hfault]
    · next hw => exact cycle_run_of_fault hc hfault hw

/-- Settles O50, row by row of R181's table. -/
theorem runStateMachine : Obligations.RunStateMachine := by
  intro o s h0
  have hnow := hostOp_between_frames o h0
  cases o with
  | stepFrame =>
    obtain ⟨t, ht⟩ := stepFrame_answers s
    refine ⟨t, _, hostOp_stepFrame h0 ht, fun hs => ?_, fun hs => stepFrame_run hs ht⟩
    rw [← Host.Outcome.next.inj ((stepFrame_of_stopped hs).symm.trans ht)]
    exact ⟨rfl, rfl⟩
  | load bytes =>
    rcases s.load_cases bytes with ⟨hf, hl⟩ | ⟨hf, hlen, hl⟩ | ⟨hf, hlen, hl⟩ <;>
      refine ⟨_, _, hnow.trans (congrArg Host.Outcome.next hl), ?_⟩ <;> dsimp only
    · rw [if_neg fun h => hf h.1]
      exact ⟨rfl, fun _ => rfl⟩
    · rw [if_neg fun h => Nat.not_le_of_lt hlen h.2]
      exact ⟨rfl, fun h => absurd hf h⟩
    · rw [if_pos ⟨hf, hlen⟩]
      exact ⟨rfl, hf⟩
  | resume =>
    rcases s.resume_cases with ⟨hf, hr⟩ | ⟨hf, hr⟩ <;>
      refine ⟨_, _, hnow.trans (congrArg Host.Outcome.next hr), ?_⟩ <;> dsimp only
    · rw [if_neg hf]
      exact ⟨rfl, rfl⟩
    · rw [if_pos hf]
      exact ⟨hf, rfl⟩
  | setCpf n =>
    rcases s.setCpf_cases n with ⟨-, hc⟩ | ⟨hn, hc⟩ <;>
      exact ⟨_, _, hnow.trans (congrArg Host.Outcome.next hc), rfl, rfl⟩
  | pause | reset | loadGlyphs | keySet | keyClear | setShiftSwap | setComplexJump => exact ⟨_, _, hnow, rfl, rfl⟩

/-! ## What each operation changes -/

/-- Settles O48, one answer of `load` at a time. -/
theorem loadCopiesProgram : Obligations.LoadCopiesProgram := by
  intro bytes s h0
  have hnow : hostOp (.load bytes) s = .next (s.load bytes) := hostOp_between_frames _ h0
  rw [hnow]
  rcases s.load_cases bytes with ⟨hf, hl⟩ | ⟨hf, hlen, hl⟩ | ⟨hf, hlen, hl⟩ <;> rw [hl]
  · exact ⟨fun _ => rfl, fun h => absurd h hf, fun h => absurd h hf⟩
  · exact ⟨fun h => absurd hf h, fun _ _ => rfl, fun _ h => absurd h (Nat.not_le_of_lt hlen)⟩
  · exact ⟨fun h => absurd hf h, fun _ h => absurd hlen (Nat.not_le_of_lt h), fun _ _ =>
      ⟨_, rfl, s.mem.read_writeBytes_inside 0x200 bytes, s.mem.read_writeBytes_outside 0x200 bytes, rfl⟩⟩

/-- Settles O49: the bytes written read back, and no other byte is written. -/
theorem glyphTableIsCopied : Obligations.GlyphTableIsCopied := by
  intro s h0
  have hlen : Config.glyph.toList.length = 80 := Config.glyph.length_toList
  refine ⟨_, hostOp_between_frames .loadGlyphs h0, fun k => ?_, fun a ha => ?_, rfl⟩
  · exact s.mem.read_writeBytes_inside 0x050 Config.glyph.toList k (by omega)
  · exact s.mem.read_writeBytes_outside 0x050 Config.glyph.toList a (by omega)

/-- Settles O51: `resume` by its two answers. -/
theorem pauseAndResume : Obligations.PauseAndResume := by
  intro s h0
  have hnow : hostOp .resume s = .next s.resume := hostOp_between_frames _ h0
  rw [hnow]
  refine ⟨hostOp_between_frames .pause h0, ?_⟩
  rcases s.resume_cases with ⟨hf, hr⟩ | ⟨hf, hr⟩ <;> rw [hr]
  · exact ⟨fun _ => rfl, fun h => absurd h hf, fun h => absurd h hf⟩
  · exact ⟨fun h => absurd hf h, fun _ hrun => by rw [if_pos hrun], fun _ hrun => by rw [if_neg hrun]⟩

/-- Settles O52: each operation writes its one register; `set_cpf` writes it for every n but 0. -/
theorem keysAndConfiguration : Obligations.KeysAndConfiguration := by
  intro s h0
  have hnow o := hostOp_between_frames o h0
  exact ⟨fun k => hnow (.keySet k), hnow .keyClear, hnow (.setCpf 0),
    fun n hn => ⟨_, (hnow (.setCpf n)).trans (congrArg _ (dif_pos hn)), rfl, rfl⟩,
    fun b => hnow (.setShiftSwap b), fun b => hnow (.setComplexJump b)⟩

/-! ## Inside a frame, and the ports -/

/-- Settles O53: the frame counter is not 0. -/
theorem operationsOnlyBetweenFrames : Obligations.OperationsOnlyBetweenFrames :=
  fun _ h => ⟨fun _ => if_neg h, fun _ => if_neg h⟩

/-- Settles O59: each port's value, the pixel on the grid. -/
theorem portsReadBetweenFrames : Obligations.PortsReadBetweenFrames := by
  intro s h0
  have hnow p := readPort_between_frames p h0
  refine ⟨fun r c => (hnow (.pixel r c)).trans ?_, hnow .pc, hnow .index, fun x => hnow (.register x), hnow .dt,
    hnow .st, fun a => hnow (.memory a), hnow .run, hnow .fault⟩
  exact congrArg (fun b => Host.Outcome.next (PortValue.bit b)) (s.fb.pixel_on_grid ⟨r.isLt, c.isLt⟩)

end Sys2Proof.Machine

/-!
Faults (spec/60_exceptions.md): the latch after each instruction that can fault is its row of R191's table; a cycle that
raises a fault is fault entry and the advance of `pc` alone; a Halted machine stays so under every operation but
`reset`.
-/

namespace Sys2Proof.Machine

/-! ## The latch after an instruction (R191) -/

/-- The record of a fault of the instruction at `ia`, its cause and address by a row of R191's table (R32). -/
def tableRecord (ia : Word) (row : Cause × Nat) : FaultRecord := ⟨row.1, ia, BitVec.ofNat 17 row.2⟩

section
variable {ia : Word} {u t : State} {P : Prop} [Decidable P]

/-- The row's condition does not hold and nothing is latched. -/
theorem latch_of_effect {row : Cause × Nat} (ht : t.fault = none) (hP : ¬P) :
    t.fault = (if P then some row else none).map (tableRecord ia) := by
  rw [ht, if_neg hP, Option.map_none]

/-- The row's condition holds and fault entry latches the row's cause and address (R196). -/
theorem latch_of_raise {e : Raise} {addr : Nat} (hP : P) (he : e.addr = BitVec.ofNat 17 addr) :
    (u.enterFault ia e).fault = (if P then some (e.cause, addr) else none).map (tableRecord ia) := by
  rw [State.enterFault_fault, he, if_pos hP, Option.map_some, tableRecord]

end

section
variable {u t : State} (hu : u.fault = none)
include hu

theorem exec_ret_latch (h : exec .ret u = .next t) :
    t.fault = (if u.sp.val = 0 then some (.stackUnderflow, 0) else none).map (tableRecord u.ia) := by
  rcases exec_ret_cases u with ⟨_, hpos, he⟩ | ⟨hempty, he⟩ <;> rw [exec_next_unique h he]
  · exact latch_of_effect hu (by omega)
  · exact latch_of_raise hempty rfl

theorem exec_call_latch {nnn : Addr12} (h : exec (.call nnn) u = .next t) :
    t.fault = (if u.sp.val = 16 then some (.stackOverflow, 0) else none).map (tableRecord u.ia) := by
  rcases exec_call_cases nnn u with ⟨hlt, he⟩ | ⟨hfull, he⟩ <;> rw [exec_next_unique h he]
  · exact latch_of_effect hu (Nat.ne_of_lt hlt)
  · exact latch_of_raise hfull rfl

theorem exec_drw_latch {x y n : Nibble} (h : exec (.drw x y n) u = .next t) :
    t.fault = (if u.spriteRowCount y n > 0 ∧ u.I.toNat + u.spriteRowCount y n - 1 > 4095 then
      some (.addressOutOfRange, max u.I.toNat 4096) else none).map (tableRecord u.ia) := by
  by_cases hout : u.spriteRowCount y n > 0 ∧ u.I.toNat + u.spriteRowCount y n - 1 > 4095
  · rw [exec_next_unique h (exec_drw_of_outOfRange hout.1 hout.2)]
    exact latch_of_raise hout (Raise.outOfRange_addr _)
  · rw [exec_next_unique h (exec_drw_of_inRange (by omega))]
    exact latch_of_effect hu hout

/-- Fx33, Fx55 and Fx65: an access of `n + 1` bytes at `I` faults exactly when its last byte is outside memory
(R52, R53). -/
theorem exec_access_latch {i : Instr} {v : State} {n : Nat}
    (hcases : u.I.toNat + (n + 1) ≤ 4096 ∧ exec i u = .next v ∨
      4096 < u.I.toNat + (n + 1) ∧ exec i u = .next (u.enterFault u.ia (Raise.outOfRange u.I.toNat)))
    (hv : v.fault = u.fault) (h : exec i u = .next t) :
    t.fault = (if u.I.toNat + n > 4095 then some (.addressOutOfRange, max u.I.toNat 4096) else none).map
      (tableRecord u.ia) := by
  rcases hcases with ⟨hle, he⟩ | ⟨hgt, he⟩ <;> rw [exec_next_unique h he]
  · exact latch_of_effect (hv.trans hu) (by omega)
  · exact latch_of_raise (by omega) (Raise.outOfRange_addr _)

end

/-! ## The cycle that raises it -/

/-- The instruction that runs after the advance is the one at `pc` (R92, log entry 8). -/
theorem State.advance_ia (s : State) : s.advance.ia = s.pc :=
  BitVec.add_sub_cancel s.pc 2

theorem State.writeVs_fault (s : State) (i : Nat) (bytes : List Byte) : (s.writeVs i bytes).fault = s.fault := by
  rw [State.writeVs_eq]

/-- The latch after a cycle is what R191's table says of the state before it. -/
theorem cycle_latch {s t : State} (hs : s.fault = none) (h : cycle s = .next t) :
    t.fault = s.expectedFault.map (tableRecord s.pc) := by
  unfold State.expectedFault
  rcases cycle_cases s with ⟨hlt, hc⟩ | ⟨hp, i, hd, hc⟩ | ⟨hp, r, hd, hc⟩
  · rw [← Host.Outcome.next.inj (hc.symm.trans h), if_pos hlt]
    rfl
  · have he := hc.symm.trans h
    rw [if_neg (Nat.not_lt.2 hp), hd, ← s.advance_ia]
    cases i with
    | ret => exact exec_ret_latch (u := s.advance) hs he
    | call nnn => exact exec_call_latch (u := s.advance) hs he
    | drw x y n => exact exec_drw_latch (u := s.advance) hs he
    | ldB x => exact exec_access_latch (u := s.advance) hs (exec_ldB_cases x _) rfl he
    | stRegs x => exact exec_access_latch (u := s.advance) hs (exec_stRegs_cases x _) rfl he
    | ldRegs x => exact exec_access_latch (u := s.advance) hs (exec_ldRegs_cases x _) (State.writeVs_fault _ _ _) he
    | _ => exact (exec_sameRunState he (by simp)).2.trans hs
  · rw [← Host.Outcome.next.inj (hc.symm.trans h), if_neg (Nat.not_lt.2 hp), hd]
    exact hs

/-- Settles O16: the latch after a cycle is R191's table, and the codes are its numbering. -/
theorem faultCauses : Obligations.FaultCauses :=
  ⟨fun _ _ => cycle_latch, rfl, rfl, rfl⟩

/-- A cycle that raises a fault is fault entry for the instruction at `pc`, after the advance if the fetch succeeded
(R196, R197). -/
theorem cycle_enters_fault {s t : State} (hs : s.fault = none) (h : cycle s = .next t) (ht : t.fault ≠ none) :
    ∃ e : Raise, t = { s with pc := if s.pc.toNat ≤ 4094 then s.pc + 2 else s.pc }.enterFault s.pc e := by
  rcases cycle_cases s with ⟨hlt, hc⟩ | ⟨hp, i, -, hc⟩ | ⟨-, r, -, hc⟩
  · rw [← Host.Outcome.next.inj (hc.symm.trans h), if_neg (Nat.not_le.2 hlt)]
    exact ⟨_, rfl⟩
  · rcases exec_runState (hc.symm.trans h) with ⟨e, -, he⟩ | ⟨-, hfault⟩
    · rw [he, s.advance_ia, if_pos hp]
      exact ⟨e, rfl⟩
    · exact absurd (hfault.trans hs) ht
  · rw [← Host.Outcome.next.inj (hc.symm.trans h)] at ht
    exact absurd hs ht

/-- Settles O17: the latch after fault entry is its record, and a cycle that faults ends its frame. -/
theorem faultsArePrecise : Obligations.FaultsArePrecise := by
  intro s t f hs h hf
  have ht : t.fault ≠ none := Option.ne_none_iff_exists'.2 ⟨f, hf⟩
  obtain ⟨e, rfl⟩ := cycle_enters_fault hs h ht
  obtain rfl : _ = f := Option.some.inj hf
  exact ⟨rfl, rfl, fun k => runCycles_succ_of_fault k h ht⟩

/-! ## Halted (R200, R201) -/

/-- Every operation but `reset` leaves a Halted machine Halted, by R181's table. -/
theorem hostOp_keeps_halted {s : State} {f : FaultRecord} (hf : s.fault = some f) (hrun : s.run = .paused)
    (h0 : s.cyclesLeft = 0) {o : HostOp} (ho : o ≠ .reset) :
    ∃ t r, hostOp o s = .next (t, r) ∧ t.fault = some f ∧ t.run = .paused := by
  have hfault : s.fault ≠ none := Option.ne_none_iff_exists'.2 ⟨f, hf⟩
  obtain ⟨t, r, ht, hrow⟩ := runStateMachine o s h0
  refine ⟨t, r, ht, ?_⟩
  cases o with
  | reset => exact absurd rfl ho
  | load bytes =>
    obtain ⟨rfl, -⟩ := (if_neg (mt And.left hfault)).mp hrow
    exact ⟨hf, hrun⟩
  | resume =>
    obtain ⟨rfl, -⟩ := (if_neg hfault).mp hrow
    exact ⟨hf, hrun⟩
  | pause =>
    obtain ⟨hpaused, hkept⟩ := hrow
    exact ⟨hkept.trans hf, hpaused⟩
  | stepFrame =>
    obtain ⟨hrunKept, hkept⟩ := hrow.1 (s.stopped_iff.2 (.inl hrun))
    exact ⟨hkept.trans hf, hrunKept.trans hrun⟩
  | _ =>
    obtain ⟨hrunKept, hkept⟩ := hrow
    exact ⟨hkept.trans hf, hrunKept.trans hrun⟩

/-- Settles O18: the gate of the step, the refusals of `load` and `resume`, R181's table for the other operations. -/
theorem haltedUntilReset : Obligations.HaltedUntilReset := by
  intro s f hf hrun h0
  have hfault : s.fault ≠ none := Option.ne_none_iff_exists'.2 ⟨f, hf⟩
  obtain ⟨hstep, hframe⟩ := stoppedMachineIsUnchanged s (.inl hrun)
  obtain ⟨-, hresume, -⟩ := pauseAndResume s h0
  exact ⟨hstep, hf ▸ hostOp_stepFrame h0 hframe, fun bytes => (loadCopiesProgram bytes s h0).1 hfault, hresume hfault,
    fun _ => hostOp_keeps_halted hf hrun h0, _, hostOp_between_frames .reset h0, rfl, rfl⟩

end Sys2Proof.Machine

/-!
Reset, power-on and what a frame hides (spec/70_reset_and_hazards.md): the state after `reset` is the power-on state
but for the configuration; two cycles of one frame that draw the same sprite leave every pixel as it was.
-/

namespace Sys2Proof.Machine

/-! ## Reset and power-on (R220, R221) -/

theorem State.readV_reset (x : Nibble) : State.reset.readV x = 0x00 :=
  Vector.getElem_replicate x.isLt

theorem State.stack_reset (k : Fin Config.stackDepth) : State.reset.stack[k] = 0x0000 :=
  Vector.getElem_replicate k.isLt

/-- Settles O55: `State.reset` is written with these values; CPF0 carries its bound. -/
theorem powerOnState : Obligations.PowerOnState :=
  ⟨fun _ => rfl, State.readV_reset, rfl, rfl, rfl, State.stack_reset, rfl, rfl, Framebuffer.pixel_blank, rfl, rfl, rfl,
    rfl, Config.cpf0.property, rfl, rfl, rfl⟩

/-- Settles O54: `reset` answers the power-on state but for the configuration, and no frame is in progress in it. -/
theorem resetRestoresState : Obligations.ResetRestoresState := by
  intro s h0
  refine ⟨s.hostReset.1, hostOp_between_frames .reset h0, fun _ => rfl, State.readV_reset, rfl, rfl, rfl,
    State.stack_reset, rfl, rfl, Framebuffer.pixel_blank, rfl, rfl, rfl, rfl, rfl, rfl, ?_⟩
  exact hostOp_between_frames .reset rfl

/-! ## A cycle that draws -/

/-- The state after a cycle that draws: `pc` advanced, then the framebuffer and the flag of the draw (R90, R152). -/
def State.drawCycle (s : State) (x y n : Nibble) : State :=
  { s.advance with fb := (s.drawn x y n).1 }.setFlag (s.drawn x y n).2

@[simp] theorem State.drawCycle_fault (s : State) (x y n : Nibble) : (s.drawCycle x y n).fault = s.fault := rfl

@[simp] theorem State.drawCycle_cyclesLeft (s : State) (x y n : Nibble) :
    (s.drawCycle x y n).cyclesLeft = s.cyclesLeft := rfl

section
variable {x y n : Nibble} {s : State}

/-- A cycle that runs Dxyn with the processed rows in memory, or none of them, is `drawCycle`. -/
theorem cycle_drw_of_inRange (hp : s.pc.toNat ≤ 4094) (hd : decode s.fetchedWord = .ok (.drw x y n))
    (hin : s.spriteRowCount y n = 0 ∨ s.I.toNat + s.spriteRowCount y n - 1 ≤ 4095) :
    cycle s = .next (s.drawCycle x y n) :=
  (cycle_of_decode s _ hp hd).trans (exec_drw_of_inRange (s := s.advance) hin)

/-- A drawing cycle keeps every register but VF (R152). -/
theorem State.readV_drawCycle {r : Nibble} (hr : r ≠ 0xF) : (s.drawCycle x y n).readV r = s.readV r :=
  (State.readV_setFlag _ _ r).trans (if_neg hr)

/-- A second draw of the same sprite inverts the pixels that the first one inverted (R153). -/
theorem State.pixel_drawCycle_twice (hx : x ≠ 0xF) (hy : y ≠ 0xF) (r c : Nat) :
    ((s.drawCycle x y n).drawCycle x y n).fb.pixel r c = s.fb.pixel r c := by
  have hsprite : (s.drawCycle x y n).spritePixel x y n r c = s.spritePixel x y n r c :=
    State.spritePixel_congr (State.readV_drawCycle hx) (State.readV_drawCycle hy) rfl (fun _ => rfl) n r c
  calc
    _ = ((s.drawCycle x y n).fb.pixel r c ^^ s.spritePixel x y n r c) :=
      hsprite ▸ (s.drawCycle x y n).drawn_pixel x y n r c
    _ = ((s.fb.pixel r c ^^ s.spritePixel x y n r c) ^^ s.spritePixel x y n r c) :=
      congrArg (· ^^ _) (s.drawn_pixel x y n r c)
    _ = s.fb.pixel r c := by rw [Bool.xor_assoc, Bool.xor_self, Bool.xor_false]

/-- Two drawing cycles in a row, of one word stored twice (R152, R153). -/
theorem cycle_drw_again (hp : s.pc.toNat ≤ 4092) (hd : decode s.fetchedWord = .ok (.drw x y n))
    (hagain : s.advance.fetchedWord = s.fetchedWord) (hy : y ≠ 0xF)
    (hin : s.spriteRowCount y n = 0 ∨ s.I.toNat + s.spriteRowCount y n - 1 ≤ 4095) :
    cycle (s.drawCycle x y n) = .next ((s.drawCycle x y n).drawCycle x y n) := by
  have hrows : (s.drawCycle x y n).spriteRowCount y n = s.spriteRowCount y n :=
    State.spriteRowCount_congr (State.readV_drawCycle hy) n
  have hpc : (s.pc + 2).toNat ≤ 4094 := by bv_omega
  exact cycle_drw_of_inRange hpc ((congrArg decode hagain).trans hd) (hrows.symm ▸ hin)

end

/-! ## Drawn and erased within one frame (R232) -/

/-- Between frames a pixel port answers its pixel alone (R179). -/
theorem readPort_pixel_congr {s t : State} (hs : s.cyclesLeft = 0) (ht : t.cyclesLeft = 0) {r : Fin 32} {c : Fin 64}
    (h : t.fb.pixel r c = s.fb.pixel r c) : readPort (.pixel r c) t = readPort (.pixel r c) s := by
  rw [readPort_between_frames _ ht, readPort_between_frames _ hs, readPortNow, readPortNow, h]

/-- Settles O60: the frame is two drawing cycles, the second of which undoes the first; between them one cycle of the
frame is left, so no port answers. -/
theorem drawnAndErasedIsNeverVisible : Obligations.DrawnAndErasedIsNeverVisible := by
  intro x y n s h0 hs hcpf hp hd hagain hx hy hin
  have hfirst : cycle s.beginFrame = .next (s.beginFrame.drawCycle x y n) :=
    cycle_drw_of_inRange (s := s.beginFrame) (Nat.le_trans hp (by decide)) hd hin
  have hsecond := cycle_drw_again (s := s.beginFrame) hp hd hagain hy hin
  have hfault : (s.beginFrame.drawCycle x y n).fault = none := ((State.stopped_eq_false_iff s).1 hs).2
  constructor
  · have hleft : s.enterCycle = s.beginFrame.withCyclesLeft 1 := by rw [State.enterCycle_between_frames h0, hcpf]
    have hstep := step_of_enterCycle hs hleft hfirst
    rw [State.leaveCycle_of_no_fault hfault] at hstep
    exact ⟨_, hstep, (operationsOnlyBetweenFrames _ Nat.one_ne_zero).2⟩
  · have hframe : stepFrame s = .next ((s.beginFrame.drawCycle x y n).drawCycle x y n) := by
      rw [stepFrame_of_not_stopped hs, hcpf, runCycles_succ 1 hfirst hfault,
        runCycles_succ 0 hsecond (by rw [State.drawCycle_fault, hfault]), runCycles]
    have hend : ((s.beginFrame.drawCycle x y n).drawCycle x y n).cyclesLeft = 0 := by simp [h0]
    exact ⟨_, hframe, fun r c =>
      readPort_pixel_congr h0 hend (State.pixel_drawCycle_twice (s := s.beginFrame) hx hy r c)⟩

end Sys2Proof.Machine
